-- ==== Sys2Proof/Word.lean ====
section
/-! DEFINITION. The word types of the machine (spec/00_scope.md R8, R11, spec/30_encoding.md R100). -/

namespace Sys2Proof

/-- A lane, and the content of every register: 64 bits, bit 0 the least significant (R8, R36). -/
abbrev Word := BitVec 64

/-- One byte of a buffer (R11). -/
abbrev Byte := BitVec 8

/-- A command word: the low 16 bits of the value written to `CMD` (R100). -/
abbrev CmdWord := BitVec 16

end Sys2Proof
end

