-- ==== Sys2Proof/Syntax.lean ====
section
/-! DEFINITION. The 13 commands of spec/opcode_table.json, one constructor per row (spec/30_encoding.md R103). -/

namespace Sys2Proof

/-- A command. `r` is the field `w[4:0]` of a format `R` command word (R101, R102): all 32 values fit it, and
WellFormed says which are legal. -/
inductive Instr where
  /-- round step 1, theta (R131) -/
  | theta
  /-- round step 2, rho and pi (R132) -/
  | rhopi
  /-- round step 3, chi (R134) -/
  | chi
  /-- round step 4, iota with round index `r` (R135) -/
  | iota (r : BitVec 5)
  /-- `apply_round(state, r)` (R150) -/
  | round (r : BitVec 5)
  /-- `permute(state)` (R151) -/
  | permute
  /-- creation of the zero state (R161) -/
  | init
  /-- the padding rule (R165) -/
  | pad
  /-- XOR of one block into the state (R168) -/
  | xorb
  /-- read-out of one block to the accumulator (R170) -/
  | extb
  /-- one iteration of absorbing (R180) -/
  | absorb
  /-- one iteration of squeezing (R182) -/
  | squeeze
  /-- `hash(input, output_len)` (R184) -/
  | hash
deriving DecidableEq, Repr

end Sys2Proof
end

