-- ==== Sys2Proof/WellFormed.lean ====
section
/-! DEFINITION. Which commands are legal (spec/30_encoding.md R102, R104 item 5). -/

namespace Sys2Proof

/-- The legal range of a round index: "0..23; the values 24..31 fit the field and are illegal" (R102). -/
def roundIndexLegal (r : BitVec 5) : Bool := decide (r.toNat < 24)

/-- A command is well formed when its operand, if it has one, is in its legal range. -/
def WellFormed (i : Instr) : Bool :=
  match i with
  | .theta => true
  | .rhopi => true
  | .chi => true
  | .iota r => roundIndexLegal r
  | .round r => roundIndexLegal r
  | .permute => true
  | .init => true
  | .pad => true
  | .xorb => true
  | .extb => true
  | .absorb => true
  | .squeeze => true
  | .hash => true

end Sys2Proof
end

