-- ==== Sys2Proof/Decode.lean ====
section
/-! DEFINITION. The command decoder (spec/30_encoding.md R100 to R104), total on every 64-bit value written to
`CMD` and rejecting by name; after it the encoder, from the same table R103; and the host's numbering of a table
word. -/

namespace Sys2Proof

/-- Why a value written to `CMD` is illegal: the five items of R104, in its order. -/
inductive IllegalReason where
  /-- item 1: a bit of 63:16 is set -/
  | highBits
  /-- item 2: the opcode is not one of the 13 -/
  | opcode
  /-- item 3: a format `N` command with a non-zero operand byte -/
  | operandByte
  /-- item 4: a format `R` command with a bit of 7:5 set -/
  | reservedBits
  /-- item 5: a format `R` command with a round index of 24 or more -/
  | roundIndex
deriving DecidableEq, Repr

/-- Bits 63:16 of a value written to `CMD`, which must be 0 (R100). -/
def highField (v : Word) : BitVec 48 := v.extractLsb' 16 48

/-- `op = w[15:8]` (R101). -/
def opField (v : Word) : BitVec 8 := v.extractLsb' 8 8

/-- `arg = w[7:0]` (R101). -/
def argField (v : Word) : BitVec 8 := v.extractLsb' 0 8

/-- `w[7:5]`, always required to be 0 (R101). -/
def reservedField (v : Word) : BitVec 3 := v.extractLsb' 5 3

/-- `r = w[4:0]` (R101, R102). -/
def roundField (v : Word) : BitVec 5 := v.extractLsb' 0 5

/-- Format `N`: the operand byte must be 0 (R100). -/
def decodeN (i : Instr) (v : Word) : Except IllegalReason Instr :=
  if argField v = 0 then .ok i else .error .operandByte

/-- Format `R`: bits 7:5 must be 0 and the round index below 24 (R100, R102). -/
def decodeR (mk : BitVec 5 → Instr) (v : Word) : Except IllegalReason Instr :=
  if reservedField v ≠ 0 then .error .reservedBits
  else if roundIndexLegal (roundField v) then .ok (mk (roundField v))
  else .error .roundIndex

/-- The decoder of R103 and R104: whole opcodes are matched. -/
def decodeCmd (v : Word) : Except IllegalReason Instr :=
  if highField v ≠ 0 then .error .highBits
  else if opField v = 0x10 then decodeN .theta v
  else if opField v = 0x11 then decodeN .rhopi v
  else if opField v = 0x12 then decodeN .chi v
  else if opField v = 0x13 then decodeR .iota v
  else if opField v = 0x18 then decodeR .round v
  else if opField v = 0x19 then decodeN .permute v
  else if opField v = 0x20 then decodeN .init v
  else if opField v = 0x21 then decodeN .pad v
  else if opField v = 0x22 then decodeN .xorb v
  else if opField v = 0x23 then decodeN .extb v
  else if opField v = 0x28 then decodeN .absorb v
  else if opField v = 0x29 then decodeN .squeeze v
  else if opField v = 0x2F then decodeN .hash v
  else .error .opcode

/-- A command's opcode, the column `op` of R103. -/
def opcode (i : Instr) : BitVec 8 :=
  match i with
  | .theta => 0x10
  | .rhopi => 0x11
  | .chi => 0x12
  | .iota _ => 0x13
  | .round _ => 0x18
  | .permute => 0x19
  | .init => 0x20
  | .pad => 0x21
  | .xorb => 0x22
  | .extb => 0x23
  | .absorb => 0x28
  | .squeeze => 0x29
  | .hash => 0x2F

/-- A command's operand byte: `r` in bits 4:0 for format `R`, 0 for format `N` (R100). -/
def operandByte (i : Instr) : BitVec 8 :=
  match i with
  | .iota r => r.setWidth 8
  | .round r => r.setWidth 8
  | _ => 0

/-- The 16-bit command word of a command: the opcode in bits 15:8, the operand byte in bits 7:0 (R100). -/
def encode (i : Instr) : CmdWord := opcode i ++ operandByte i

/-- The 64-bit value the host writes to `CMD` for a command: bits 63:16 are 0 (R100). -/
def encodeCmd (i : Instr) : Word := (encode i).setWidth 64

/-- The value written to `CMD` for an `nbits`-bit table word `w`: every bit above `nbits` is 0. -/
def cmdOfTableWord (nbits w : Nat) : Word := BitVec.ofNat 64 (w % 2 ^ nbits)

/-- The instruction the decoder reads from a table word (a command word is one 16-bit word, so the table's bit
numbers are the word's own). -/
def decodeTableWord (nbits w : Nat) : Option Instr :=
  match decodeCmd (cmdOfTableWord nbits w) with
  | .ok i => some i
  | .error _ => none

end Sys2Proof
end

