-- ==== Sys2Proof/Config.lean ====
section
/-! DEFINITION. What one instance of the block fixes (its two buffer capacities, R6) and the free values: the
bytes the two buffers hold after a reset until something writes them (R41, U2, U3). -/

namespace Sys2Proof

/-- The open parameters of R6: `ibufCap` is `IBUF_CAP` in bytes, `obufCapW` is `OBUF_CAP_W` in 64-bit words.
The machine carries them in its state, where no transition writes them (DESIGN CHOICE, log 2: safe). -/
structure Params where
  ibufCap  : Nat
  obufCapW : Nat
deriving DecidableEq, Repr

/-- The constraints R6 puts on the capacities. -/
abbrev Params.wf (p : Params) : Prop :=
  0 < p.ibufCap ∧ p.ibufCap % 168 = 0 ∧ p.ibufCap < 2 ^ 63 ∧
  0 < p.obufCapW ∧ p.obufCapW % 21 = 0 ∧ 8 * p.obufCapW < 2 ^ 63

/-- FREE VALUE (log 3). `Config.ibufAtReset n a`: what byte `a` of `IBUF` holds after the `n`-th reset until it is
first written. R41: "a model must treat each byte as an unknown value". It has no body. -/
opaque Config.ibufAtReset : Nat → Nat → Byte

/-- FREE VALUE (log 3). `Config.obufAtReset n a`: what byte `a` of `OBUF` holds after the `n`-th reset until it is
first written (R41, U3). It has no body. -/
opaque Config.obufAtReset : Nat → Nat → Byte

end Sys2Proof
end

