-- ==== Sys2Proof/Machine/State.lean ====
section
/-! DEFINITION. The architectural state of one instance (spec/10_state.md R20), the host's moves (spec/20_memory.md
R70), the outcomes' reasons, and the state after reset (R41). -/

namespace Sys2Proof.Machine

/-- 25 lanes of 64 bits by linear index `x + 5*y` (R21, R22, R23). -/
abbrev Lanes := Vector Word 25

/-- The bytes of a buffer that have been written since the last reset, as (address, byte) pairs. An address that is
not listed has no specified value. -/
abbrev Memory := List Host.Cell

/-- The canonical form of a Memory: addresses strictly rising. (An unlisted address has no specified value, so no
entry can equal it.) -/
abbrev Memory.wf (m : Memory) : Prop := m.Pairwise (fun c d => c.1 < d.1)

/-- The three fault codes of R200; `none` in `Status.err` is code 0. -/
inductive FaultCode where
  /-- code 1: a write to `CMD` of a value that is no legal command word (R201) -/
  | illegalCmd
  /-- code 2: an access past the available buffer (R202) -/
  | index
  /-- code 3: the data does not fit a buffer (R203) -/
  | capacity
deriving DecidableEq, Repr

/-- The fields of the register `STATUS` (R34). Its other bits are hard-wired to 0 and are not stored. -/
structure Status where
  /-- bit 0: a command is being performed -/
  busy : Bool
  /-- bit 1: the last accepted command was `HASH` and it completed without fault -/
  done : Bool
  /-- bits 15:8: the first fault since reset, sticky -/
  err  : Option FaultCode
deriving DecidableEq, Repr

/-- Everything the host can do to an instance: the five transactions of R70, and reset (R230). -/
inductive HostMove where
  /-- `HostWriteReg(n, v)` (R71) -/
  | writeReg (n : Nat) (v : Word)
  /-- `HostReadReg(n)` (R72) -/
  | readReg (n : Nat)
  /-- `HostWriteIBUF(a, b)` (R73) -/
  | writeIbuf (a : Nat) (b : Byte)
  /-- `HostReadIBUF(a)` (R74) -/
  | readIbuf (a : Nat)
  /-- `HostReadOBUF(a)` (R75) -/
  | readObuf (a : Nat)
  /-- assertion of reset (R230) -/
  | reset
deriving DecidableEq, Repr

/-- What a host read returned: a register's 64 bits (R72) or a buffer's byte (R74, R75). -/
inductive Reply where
  | word (v : Word)
  | byte (b : Byte)
deriving DecidableEq, Repr

/-- The state of one instance: R20's table, and four fields of the model's own (`params`, `resets`, `inbox`,
`reply`: INVENTORY.md, logs 1 to 3). -/
structure State where
  /-- the instance's capacities (R6); no transition writes them -/
  params : Params
  /-- `A`, the Cryptographic State, `LANE[0..24]` (R21, R22) -/
  a : Lanes
  /-- `B`, the rho+pi buffer, `BLANE[0..24]` (R23) -/
  b : Lanes
  /-- `ILEN` (R28) -/
  ilen : Word
  /-- `OLEN` (R29) -/
  olen : Word
  /-- `PLEN` (R30) -/
  plen : Word
  /-- `BLK` (R32) -/
  blk : Word
  /-- `OCNT` (R33) -/
  ocnt : Word
  /-- `STATUS` (R34) -/
  status : Status
  /-- `IBUF`: the bytes written since reset (R38) -/
  ibuf : Memory
  /-- `OBUF`: the bytes written since reset (R39) -/
  obuf : Memory
  /-- how many resets there have been: what the free values of unwritten bytes depend on (log 3) -/
  resets : Nat
  /-- the host's pending moves, oldest first (R70, R80) -/
  inbox : List HostMove
  /-- what the last step returned to the host, if it was a read -/
  reply : Option Reply
deriving DecidableEq, Repr

/-- Reasons a step stops with a fault: there are none. Every fault of this hardware is a next state in which
`STATUS.ERR` holds its code (R206), and the machine goes on. -/
inductive Fault where
deriving DecidableEq, Repr

/-- Reasons a step is refused. -/
inductive Refusal where
  /-- An instruction that has no meaning yet. Raised only by arms of `exec`; safe. No arm of this model raises it. -/
  | notModelled (mnemonic : String)
  /-- A host transaction other than `HostReadReg(1)`, in a state with `STATUS.BUSY = 1`: "has no defined effect or
  result" (R77), "refuse" (93 U1). Raised by a step only; safe: the hardware does something, nothing is claimed. -/
  | hostMoveWhileBusy
deriving DecidableEq, Repr

/-- R41's table for an instance with capacities `p`, after its `n`-th reset, with nothing pending. -/
def State.atReset (p : Params) (n : Nat) : State where
  params := p
  a := Vector.replicate 25 0
  b := Vector.replicate 25 0
  ilen := 0
  olen := 0
  plen := 0
  blk := 0
  ocnt := 0
  status := ⟨false, false, none⟩
  ibuf := []
  obuf := []
  resets := n
  inbox := []
  reply := none

/-- The machine right after reset (R41), on the instance spec/95_test_vectors.md uses: `IBUF_CAP = 336`,
`OBUF_CAP_W = 42` (DESIGN CHOICE, log 2: unsafe for a claim that rests on these two numbers; none does). -/
def State.reset : State := State.atReset ⟨336, 42⟩ 0

end Sys2Proof.Machine
end

