-- ==== Sys2Proof/Machine/Operands.lean ====
section
/-! DEFINITION. Operand forms: lane coordinates, the lane operators, and little-endian words
(spec/00_scope.md R9 to R11, spec/20_memory.md R64). -/

namespace Sys2Proof.Machine

/-- `A[x][y]`, that is `LANE[x + 5*y]` (R10, R22). Coordinates are modulo 5. -/
def laneAt (l : Lanes) (x y : Fin 5) : Word := l[x.val + 5 * y.val]

/-- The lane of word `j` in the linearization order, `A[j mod 5][j div 5]` (R172). -/
def laneOfWord (l : Lanes) (j : Nat) : Word := laneAt l (Fin.ofNat 5 (j % 5)) (Fin.ofNat 5 (j / 5))

/-- The lanes whose value at `(x, y)` is `f x y`: each line is one row `y` of the table of R22. -/
def lanesOf (f : Fin 5 → Fin 5 → Word) : Lanes :=
  #v[f 0 0, f 1 0, f 2 0, f 3 0, f 4 0,
     f 0 1, f 1 1, f 2 1, f 3 1, f 4 1,
     f 0 2, f 1 2, f 2 2, f 3 2, f 4 2,
     f 0 3, f 1 3, f 2 3, f 3 3, f 4 3,
     f 0 4, f 1 4, f 2 4, f 3 4, f 4 4]

/-- 25 lanes of 0. -/
def zeroLanes : Lanes := Vector.replicate 25 0

/-- `rotl64(a, n)`, rotation to the left: bit `i` of `a` becomes bit `(i + n) mod 64` (R9). -/
def rotl64 (a : Word) (n : Nat) : Word := a.rotateLeft n

/-- `BYTE(v, k) = floor(v / 2^(8k)) mod 256` (R11). -/
def byteOf (v : Word) (k : Nat) : Byte := v.extractLsb' (8 * k) 8

/-- The eight bytes of a word, the least significant first (R11, R64). -/
def bytesOfWord (v : Word) : List Byte := (List.range 8).map (byteOf v)

/-- `b0 + 2^8*b1 + 2^16*b2 + ...` of a list of bytes (R11). -/
def leNat : List Byte → Nat
  | [] => 0
  | b :: bs => b.toNat + 256 * leNat bs

/-- `LE64(b0, ..., b7)`: the first byte is the least significant (R11). -/
def le64 (bs : List Byte) : Word := BitVec.ofNat 64 (leNat bs)

/-- The bytes of the rate, `S[0 .. 167] = LANE[0 .. 20]` byte for byte (R65). -/
def rateBytesOf (l : Lanes) : List Byte := (List.range 21).flatMap fun j => bytesOfWord (laneOfWord l j)

/-- The lanes with word `w j` XORed into lane `j` for `j` in 0..20; lanes 21..24 as they were (R168, R172). -/
def xorRate (l : Lanes) (w : Nat → Word) : Lanes :=
  lanesOf fun x y =>
    if x.val + 5 * y.val < 21 then laneAt l x y ^^^ w (x.val + 5 * y.val) else laneAt l x y

/-- `ceil(a/b) = (a + b - 1) div b` (R12). -/
def ceilDiv (a b : Nat) : Nat := (a + b - 1) / b

end Sys2Proof.Machine
end

