-- ==== Sys2Proof/Machine/Flags.lean ====
section
/-! DEFINITION. The register `STATUS`: its 64-bit view and the changes of its fields (spec/10_state.md R34,
spec/30_encoding.md R110, spec/60_exceptions.md R200, R206). The hardware has no other flags (R40). -/

namespace Sys2Proof.Machine

/-- The fault code of R200's table; 0 is no fault. -/
def errCode (e : Option FaultCode) : BitVec 8 :=
  match e with
  | none => 0
  | some .illegalCmd => 1
  | some .index => 2
  | some .capacity => 3

/-- `STATUS` as the host reads it: `BUSY` in bit 0, `DONE` in bit 1, `ERR` in bits 15:8, every other bit 0 (R34). -/
def statusWord (st : Status) : Word :=
  (0#48 ++ errCode st.err) ++ ((0#6 ++ BitVec.ofBool st.done) ++ BitVec.ofBool st.busy)

/-- The engine is halted while `STATUS.ERR != 0` (R207). -/
def halted (s : State) : Bool := s.status.err.isSome

/-- Acceptance of a command: `DONE <- 0`, `BUSY <- 1` (R110). -/
def acceptStatus (st : Status) : Status := { st with done := false, busy := true }

/-- The end of a command: `BUSY <- 0` (R110). -/
def finishStatus (st : Status) : Status := { st with busy := false }

/-- Fault entry: `ERR <- code`, `DONE <- 0`, `BUSY <- 0` (R206). -/
def faultStatus (c : FaultCode) : Status := ⟨false, false, some c⟩

end Sys2Proof.Machine
end

