-- ==== Sys2Proof/Machine/Ops.lean ====
section
/-! DEFINITION. The shared operations: the two buffers, the registers by number, raising a fault, performing a
command, and reset. -/

namespace Sys2Proof.Machine

/-! ### The buffers -/

/-- The byte a buffer lists at an address; `none` when it has not been written since reset. -/
def Memory.lookup : Memory → Nat → Option Byte
  | [], _ => none
  | (k, v) :: rest, a => if k = a then some v else Memory.lookup rest a

/-- A write of one byte; it keeps the list sorted. -/
def Memory.store : Memory → Nat → Byte → Memory
  | [], a, b => [(a, b)]
  | (k, v) :: rest, a, b =>
    if a < k then (a, b) :: (k, v) :: rest
    else if a = k then (a, b) :: rest
    else (k, v) :: Memory.store rest a b

/-- Writes of consecutive bytes from an address upwards. -/
def Memory.storeBytes : Memory → Nat → List Byte → Memory
  | m, _, [] => m
  | m, a, b :: bs => Memory.storeBytes (m.store a b) (a + 1) bs

/-- `MemRead(IBUF, a, 1)`: the byte written last, or the free value the byte holds since reset (R41, U2). -/
def ibufByte (s : State) (a : Nat) : Byte := (s.ibuf.lookup a).getD (Config.ibufAtReset s.resets a)

/-- `MemRead(IBUF, a, 8)`, little-endian (R64). -/
def ibufWord (s : State) (a : Nat) : Word := le64 ((List.range 8).map fun k => ibufByte s (a + k))

/-- `MemWrite(IBUF, a, 1, v)` (R12). -/
def writeIbuf (s : State) (a : Nat) (v : Byte) : State := { s with ibuf := s.ibuf.store a v }

/-- `MemRead(OBUF, a, 1)`: the byte written last, or the free value the byte holds since reset (R41, U3). -/
def obufByte (s : State) (a : Nat) : Byte := (s.obuf.lookup a).getD (Config.obufAtReset s.resets a)

/-- `MemWrite(OBUF, a, 8, v)`: `OBUF[a+k] <- BYTE(v, k)` (R12, R64). -/
def writeObufWord (s : State) (a : Nat) (v : Word) : State :=
  { s with obuf := s.obuf.storeBytes a (bytesOfWord v) }

/-- The number of bytes the host can read of `OBUF`: `min(OLEN, 8 * OCNT)` (R75). -/
def window (s : State) : Nat := min s.olen.toNat (8 * s.ocnt.toNat)

/-! ### The registers by number -/

/-- The value `HostReadReg(n)` returns (R36, R37, R72). -/
def readReg (s : State) (n : Nat) : Word :=
  if n = 1 then statusWord s.status
  else if n = 2 then s.ilen
  else if n = 3 then s.olen
  else if n = 4 then s.plen
  else if n = 5 then s.blk
  else if n = 6 then s.ocnt
  else if h : 32 ≤ n ∧ n - 32 < 25 then s.a[n - 32]
  else if h : 64 ≤ n ∧ n - 64 < 25 then s.b[n - 64]
  else 0

/-- The effect of `HostWriteReg(n, v)` for `n` other than 0, on an engine that is not halted: `ILEN`, `OLEN` and
`LANE[i]` are written, every other number is ignored (R37, R71). -/
def writeReg (s : State) (n : Nat) (v : Word) : State :=
  if n = 2 then { s with ilen := v }
  else if n = 3 then { s with olen := v }
  else if h : 32 ≤ n ∧ n - 32 < 25 then { s with a := s.a.set (n - 32) v }
  else s

/-! ### Faults, commands, reset -/

/-- `raise Fault(code)`: exactly these three fields of `STATUS`, and nothing more (R206). -/
def raiseFault (c : FaultCode) (s : State) : State := { s with status := faultStatus c }

/-- Performing a command (R110). A halted engine ignores it (R207). Otherwise `DONE <- 0`, `BUSY <- 1`, the rule of
the command, `BUSY <- 0`; and if the rule raises a fault, everything it would have written is as it was before the
command and the fault is entered (R206). -/
def perform (rule : State → Except FaultCode State) (s : State) : Host.Outcome State Fault Refusal :=
  if halted s then .next s
  else
    match rule { s with status := acceptStatus s.status } with
    | .ok t => .next { t with status := finishStatus t.status }
    | .error c => .next (raiseFault c s)

/-- Assertion of reset (R230): R41's table. It is the one way out of the halted state (R208). What the buffers
hold afterwards is unspecified anew. The capacities are the instance's, and the moves the host has still to make
are the host's: neither changes. -/
def applyReset (s : State) : State :=
  { State.atReset s.params (s.resets + 1) with inbox := s.inbox }

end Sys2Proof.Machine
end

