-- ==== Sys2Proof/Machine/Rom.lean ====
section
/-! DEFINITION. The two ROMs (spec/10_state.md R25 to R27) and the two padding bytes (spec/00_scope.md R5). -/

namespace Sys2Proof.Machine

/-- The table of R26 as it is printed: line `k` holds `RC[k]`, `RC[k+8]` and `RC[k+16]`. -/
def roundConstants : Vector (Vector Word 3) 8 :=
  #v[#v[0x0000000000000001, 0x000000000000008A, 0x8000000000008002],
     #v[0x0000000000008082, 0x0000000000000088, 0x8000000000000080],
     #v[0x800000000000808A, 0x0000000080008009, 0x000000000000800A],
     #v[0x8000000080008000, 0x000000008000000A, 0x800000008000000A],
     #v[0x000000000000808B, 0x000000008000808B, 0x8000000080008081],
     #v[0x0000000080000001, 0x800000000000008B, 0x8000000000008080],
     #v[0x8000000080008081, 0x8000000000008089, 0x0000000080000001],
     #v[0x8000000000008009, 0x8000000000008003, 0x8000000080008008]]

/-- `RC[r]` (R25, R26). -/
def rc (r : Fin 24) : Word := roundConstants[r.val % 8][r.val / 8]

/-- The table of R27 as it is printed: line `y`, and in it the entry of column `x`. -/
def rotationOffsets : Vector (Vector Nat 5) 5 :=
  #v[#v[ 0,  1, 62, 28, 27],
     #v[36, 44,  6, 55, 20],
     #v[ 3, 10, 43, 25, 39],
     #v[41, 45, 15, 21,  8],
     #v[18,  2, 61, 56, 14]]

/-- `ROT[x][y]`, by the source position of the lane (R25, R27). -/
def rot (x y : Fin 5) : Nat := rotationOffsets[y][x]

/-- `DSUF`, the domain-separation byte (R5, R165). -/
def dsuf : Byte := 0x1F

/-- `FINAL`, XORed into the last byte of the padded input (R5, R165). -/
def finalBit : Byte := 0x80

end Sys2Proof.Machine
end

