-- ==== Sys2Proof/Machine/Permutation.lean ====
section
/-! DEFINITION. The Permutation Engine: `THETA`, `RHOPI`, `CHI`, `IOTA`, `ROUND`, `PERMUTE`
(spec/40_permutation_steps.md, spec/41_permutation_rounds.md). -/

namespace Sys2Proof.Machine

/-! ### On lanes -/

/-- `C[x]`, the XOR of the five lanes of column `x` (R131). -/
def columnParity (l : Lanes) (x : Fin 5) : Word :=
  laneAt l x 0 ^^^ laneAt l x 1 ^^^ laneAt l x 2 ^^^ laneAt l x 3 ^^^ laneAt l x 4

/-- `D[x] = C[x-1] ^ rotl64(C[x+1], 1)` (R131). -/
def thetaTerm (l : Lanes) (x : Fin 5) : Word :=
  columnParity l (x + 4) ^^^ rotl64 (columnParity l (x + 1)) 1

/-- Theta (R131). -/
def thetaLanes (l : Lanes) : Lanes := lanesOf fun x y => laneAt l x y ^^^ thetaTerm l x

/-- The position pi takes a lane from: `(x, y)` is the destination of `(x + 3y, x)`, since the destination of
`(u, v)` is `(v, 2u + 3v)` (R132, R137). -/
def piSource (x y : Fin 5) : Fin 5 × Fin 5 := (x + 3 * y, x)

/-- Rho and pi (R132): the lane at `(u, v)`, rotated by `ROT[u][v]`, goes to `(v, 2u + 3v)`; written by
destination. -/
def rhoPiLanes (l : Lanes) : Lanes :=
  lanesOf fun x y =>
    let p := piSource x y
    rotl64 (laneAt l p.1 p.2) (rot p.1 p.2)

/-- Chi (R134). -/
def chiLanes (l : Lanes) : Lanes :=
  lanesOf fun x y => laneAt l x y ^^^ (~~~ laneAt l (x + 1) y &&& laneAt l (x + 2) y)

/-- Iota (R135). -/
def iotaLanes (r : Fin 24) (l : Lanes) : Lanes := l.set 0 (l[0] ^^^ rc r)

/-! ### On the state -/

/-- R131: reads and writes `A`. -/
def thetaState (s : State) : State := { s with a := thetaLanes s.a }

/-- R132: reads `A`, writes `B`. -/
def rhoPiState (s : State) : State := { s with b := rhoPiLanes s.a }

/-- R134: reads `B`, writes `A`. -/
def chiState (s : State) : State := { s with a := chiLanes s.b }

/-- R135: reads and writes `A[0][0]`. -/
def iotaState (r : Fin 24) (s : State) : State := { s with a := iotaLanes r s.a }

/-- R150: the four steps in order. -/
def roundState (r : Fin 24) (s : State) : State := iotaState r (chiState (rhoPiState (thetaState s)))

/-- R151: rounds 0, 1, ..., 23. -/
def permuteState (s : State) : State := (List.finRange 24).foldl (fun t r => roundState r t) s

/-- The rule of a format `R` command. A round index of 24 or more is no legal command (R104 item 5): the decoder
never gives one, and on such a term the rule raises what the decoder raises (R201). -/
def withRound (r : BitVec 5) (rule : Fin 24 → State → State) (s : State) : Except FaultCode State :=
  if h : r.toNat < 24 then .ok (rule ⟨r.toNat, h⟩ s) else .error .illegalCmd

/-! ### The commands -/

/-- `THETA` (R131). -/
def execTheta (s : State) : Host.Outcome State Fault Refusal := perform (fun t => .ok (thetaState t)) s

/-- `RHOPI` (R132). -/
def execRhopi (s : State) : Host.Outcome State Fault Refusal := perform (fun t => .ok (rhoPiState t)) s

/-- `CHI` (R134). -/
def execChi (s : State) : Host.Outcome State Fault Refusal := perform (fun t => .ok (chiState t)) s

/-- `IOTA r` (R135). -/
def execIota (r : BitVec 5) (s : State) : Host.Outcome State Fault Refusal := perform (withRound r iotaState) s

/-- `ROUND r` (R150). -/
def execRound (r : BitVec 5) (s : State) : Host.Outcome State Fault Refusal := perform (withRound r roundState) s

/-- `PERMUTE` (R151). -/
def execPermute (s : State) : Host.Outcome State Fault Refusal := perform (fun t => .ok (permuteState t)) s

end Sys2Proof.Machine
end

