-- ==== Sys2Proof/Machine/Sponge.lean ====
section
/-! DEFINITION. The sponge primitives `INIT`, `PAD`, `XORB`, `EXTB` (spec/42_sponge_primitives.md). -/

namespace Sys2Proof.Machine

/-- R161: `A`, `B`, `PLEN`, `BLK`, `OCNT` become 0. -/
def initState (s : State) : State :=
  { s with a := zeroLanes, b := zeroLanes, plen := 0, blk := 0, ocnt := 0 }

/-- `p = 168 * (n div 168 + 1)`, "the least multiple of 168 that is >= n + 1" (R165). -/
def paddedLen (n : Nat) : Nat := 168 * (n / 168 + 1)

/-- The three writes of R165, in its order: `DSUF` at `n`, zero bytes from `n+1` to `p-1`, and `FINAL` XORed into
the byte that then stands at `p-1`. -/
def padBytes (s : State) (n : Nat) : State :=
  let p := paddedLen n
  let s1 := writeIbuf s n dsuf
  let s2 := { s1 with ibuf := s1.ibuf.storeBytes (n + 1) (List.replicate (p - 1 - n) 0) }
  writeIbuf s2 (p - 1) (ibufByte s2 (p - 1) ^^^ finalBit)

/-- The rule of `PAD` (R165). -/
def padRule (s : State) : Except FaultCode State :=
  if s.params.ibufCap ≤ s.ilen.toNat then .error .capacity
  else .ok { padBytes s s.ilen.toNat with plen := BitVec.ofNat 64 (paddedLen s.ilen.toNat) }

/-- The rule of `XORB` (R168). -/
def xorbRule (s : State) : Except FaultCode State :=
  if s.plen.toNat < 168 * (s.blk.toNat + 1) then .error .index
  else .ok { s with
    a := xorRate s.a fun j => ibufWord s (168 * s.blk.toNat + 8 * j)
    blk := s.blk + 1 }

/-- The rule of `EXTB` (R170). -/
def extbRule (s : State) : Except FaultCode State :=
  if s.params.obufCapW < s.ocnt.toNat + 21 then .error .capacity
  else .ok { (List.range 21).foldl
      (fun t j => writeObufWord t (8 * (s.ocnt.toNat + j)) (laneOfWord s.a j)) s with
    ocnt := s.ocnt + 21 }

/-- `INIT` (R161). -/
def execInit (s : State) : Host.Outcome State Fault Refusal := perform (fun t => .ok (initState t)) s

/-- `PAD` (R165). -/
def execPad (s : State) : Host.Outcome State Fault Refusal := perform padRule s

/-- `XORB` (R168). -/
def execXorb (s : State) : Host.Outcome State Fault Refusal := perform xorbRule s

/-- `EXTB` (R170). -/
def execExtb (s : State) : Host.Outcome State Fault Refusal := perform extbRule s

end Sys2Proof.Machine
end

