-- ==== Sys2Proof/Machine/Composite.lean ====
section
/-! DEFINITION. The composites `ABSORB`, `SQUEEZE`, `HASH` (spec/43_sponge_composites.md). -/

namespace Sys2Proof.Machine

/-- The rule of `ABSORB` (R180): `XORB ; PERMUTE`, with the check of `XORB` first. -/
def absorbRule (s : State) : Except FaultCode State := do
  let t ← xorbRule s
  return permuteState t

/-- The rule of `SQUEEZE` (R182): `EXTB ; PERMUTE`, with the check of `EXTB` first. -/
def squeezeRule (s : State) : Except FaultCode State := do
  let t ← extbRule s
  return permuteState t

/-- `for k in 1 .. n: ABSORB` (R184). -/
def absorbLoop : Nat → State → Except FaultCode State
  | 0, s => .ok s
  | n + 1, s => do
    let t ← absorbRule s
    absorbLoop n t

/-- `while OCNT < nw: SQUEEZE` (R184), with fuel: each pass appends 21 words, so `nw` passes are never too few. -/
def squeezeLoop (nw : Nat) : Nat → State → Except FaultCode State
  | 0, s => .ok s
  | fuel + 1, s =>
    if s.ocnt.toNat < nw then do
      let t ← squeezeRule s
      squeezeLoop nw fuel t
    else .ok s

/-- `nw = ceil(OLEN / 8)`, the words the output needs (R184). -/
def wordsNeeded (olen : Nat) : Nat := ceilDiv olen 8

/-- `ns = ceil(nw / 21)`, the read-outs the output needs (R184). -/
def readoutsNeeded (olen : Nat) : Nat := ceilDiv (wordsNeeded olen) 21

/-- The rule of `HASH` (R184): both checks, then `INIT`, `PAD`, the absorbing loop, the squeezing loop,
`DONE <- 1`. -/
def hashRule (s : State) : Except FaultCode State :=
  if s.params.ibufCap ≤ s.ilen.toNat then .error .capacity
  else if s.params.obufCapW < 21 * readoutsNeeded s.olen.toNat then .error .capacity
  else do
    let t ← padRule (initState s)
    let u ← absorbLoop (t.plen.toNat / 168) t
    let w ← squeezeLoop (wordsNeeded s.olen.toNat) (wordsNeeded s.olen.toNat) u
    return { w with status := { w.status with done := true } }

/-- `ABSORB` (R180). -/
def execAbsorb (s : State) : Host.Outcome State Fault Refusal := perform absorbRule s

/-- `SQUEEZE` (R182). -/
def execSqueeze (s : State) : Host.Outcome State Fault Refusal := perform squeezeRule s

/-- `HASH` (R184). -/
def execHash (s : State) : Host.Outcome State Fault Refusal := perform hashRule s

end Sys2Proof.Machine
end

