-- ==== Sys2Proof/Machine/HostPort.lean ====
section
/-! DEFINITION. The host's transactions (spec/20_memory.md R71 to R77) and reset, as moves on the state. -/

namespace Sys2Proof.Machine

/-- `HostWriteReg(n, v)` (R71): ignored while halted (R76); a write to `CMD` decodes and performs (R110); any other
register is written or the write ignored. -/
def hostWriteReg (n : Nat) (v : Word) (s : State) : Host.Outcome State Fault Refusal :=
  if halted s then .next s
  else if n = 0 then
    match decodeCmd v with
    | .ok i => exec i s
    | .error _ => .next (raiseFault .illegalCmd s)
  else .next (writeReg s n v)

/-- The state an out-of-range host access leaves: `INDEX` is raised, unless the engine is halted (R74 to R76). -/
def outOfRange (s : State) : State := if halted s then s else raiseFault .index s

/-- `HostWriteIBUF(a, b)` (R73). -/
def hostWriteIbuf (a : Nat) (b : Byte) (s : State) : State :=
  if halted s then s
  else if s.params.ibufCap ≤ a then raiseFault .index s
  else writeIbuf s a b

/-- `HostReadIBUF(a)` (R74): the byte returned and the state left. -/
def hostReadIbuf (a : Nat) (s : State) : Byte × State :=
  if s.params.ibufCap ≤ a then (0, outOfRange s) else (ibufByte s a, s)

/-- `HostReadOBUF(a)` (R75): the byte returned and the state left. -/
def hostReadObuf (a : Nat) (s : State) : Byte × State :=
  if window s ≤ a then (0, outOfRange s) else (obufByte s a, s)

/-- The moves that have a meaning while a command runs: `HostReadReg(1)` (R77) and reset (R230). -/
def allowedWhileBusy (m : HostMove) : Bool :=
  match m with
  | .readReg n => n == 1
  | .reset => true
  | _ => false

/-- One move of the host on an instance. -/
def hostMove (m : HostMove) (s : State) : Host.Outcome State Fault Refusal :=
  if s.status.busy && !allowedWhileBusy m then .refused .hostMoveWhileBusy
  else
    match m with
    | .writeReg n v => hostWriteReg n v s
    | .readReg n => .next { s with reply := some (.word (readReg s n)) }
    | .writeIbuf a b => .next (hostWriteIbuf a b s)
    | .readIbuf a => .next { (hostReadIbuf a s).2 with reply := some (.byte (hostReadIbuf a s).1) }
    | .readObuf a => .next { (hostReadObuf a s).2 with reply := some (.byte (hostReadObuf a s).1) }
    | .reset => .next (applyReset s)

end Sys2Proof.Machine
end

