-- ==== Sys2Proof/Machine/Step.lean ====
section
/-! DEFINITION. One step of the machine: the next pending move of the host, performed whole (R13, R80). -/

namespace Sys2Proof.Machine

/-- One step. With no move pending the engine is idle and holds its state (R224). Otherwise the oldest pending move
is taken and performed; a step that reads nothing returns nothing. -/
def step (s : State) : Host.Outcome State Fault Refusal :=
  match s.inbox with
  | [] => .next s
  | m :: rest => hostMove m { s with inbox := rest, reply := none }

/-- The state in which the host's next move is the write of a table word to `CMD`, so that the next step runs it.
A command is not fetched from memory (R31, R83): this write is how one comes to run (log 1). -/
def State.withFetchWord (s : State) (nbits w : Nat) : State :=
  { s with inbox := .writeReg 0 (cmdOfTableWord nbits w) :: s.inbox }

end Sys2Proof.Machine
end

