-- ==== Sys2Proof/Machine/Shake128.lean ====
section
/-! DEFINITION. The pure function `SHAKE128(M, L)` of spec/43_sponge_composites.md R186, with no capacity limits:
what `HASH` computes. It is on byte lists and lanes alone, and no step of the machine calls it. -/

namespace Sys2Proof.Machine

/-- One round on lanes (R150). -/
def roundLanes (r : Fin 24) (l : Lanes) : Lanes := iotaLanes r (chiLanes (rhoPiLanes (thetaLanes l)))

/-- `Keccak_f(S)`: the 24 rounds (R151, R186). -/
def keccakF (l : Lanes) : Lanes := (List.finRange 24).foldl (fun m r => roundLanes r m) l

/-- `M ++ [0x1F] ++ [0x00] * (p - n - 1)` with `p = 168 * (n div 168 + 1)`, before the last line of `pad` (R186). -/
def shakePadZero (msg : List Byte) : List Byte :=
  msg ++ [dsuf] ++ List.replicate (168 * (msg.length / 168 + 1) - msg.length - 1) 0

/-- `pad(M)`: then `P[p-1] <- P[p-1] ^ 0x80` (R186). -/
def shakePad (msg : List Byte) : List Byte :=
  (shakePadZero msg).modify ((shakePadZero msg).length - 1) (· ^^^ finalBit)

/-- Word `j` of block `k` of a byte list: `LE64(P[168k + 8j .. 168k + 8j + 7])` (R186). -/
def shakeWord (p : List Byte) (k j : Nat) : Word := le64 ((p.drop (168 * k + 8 * j)).take 8)

/-- `S_k`: the lanes after `k` blocks of the padded message (R186). -/
def shakeAbsorbed (p : List Byte) : Nat → Lanes
  | 0 => zeroLanes
  | k + 1 => keccakF (xorRate (shakeAbsorbed p k) (shakeWord p k))

/-- `T_m`: the lanes after `m` read-outs, `T_0 = t` (R186). -/
def shakeSqueezed (t : Lanes) : Nat → Lanes
  | 0 => t
  | m + 1 => keccakF (shakeSqueezed t m)

/-- `T_0 = S_(p/168)` for a message (R186). -/
def shakeStart (msg : List Byte) : Lanes := shakeAbsorbed (shakePad msg) ((shakePad msg).length / 168)

/-- The first `m` blocks of `Z = bytes(T_0) ++ bytes(T_1) ++ ...` (R186). -/
def shakeStream (t : Lanes) (m : Nat) : List Byte := (List.range m).flatMap fun k => rateBytesOf (shakeSqueezed t k)

/-- `SHAKE128(M, L)`: the first `L` bytes of `Z`; "only `ceil(ceil(L/8)/21)` of the `T_m` are needed" (R186). -/
def shake128 (msg : List Byte) (len : Nat) : List Byte :=
  (shakeStream (shakeStart msg) ((((len + 7) / 8) + 20) / 21)).take len

end Sys2Proof.Machine
end

