-- ==== Sys2Proof/Safety.lean ====
section
/-! DEFINITION. The terms in which statements are made: a host move issued now, a sequence of commands, the
invariant of the machine, and a run that has produced a result. -/

namespace Sys2Proof.Machine

/-- The host issues `m` now: `m` stands before everything else it has pending, and the machine takes one step. -/
def issue (m : HostMove) (s : State) : Host.Outcome State Fault Refusal :=
  step { s with inbox := m :: s.inbox }

/-- The host issues moves one after another: the state at the end, and what its reads returned, in order. -/
def issueAll : List HostMove → State → Host.Outcome (State × List Reply) Fault Refusal
  | [], s => .next (s, [])
  | m :: ms, s =>
    match issue m s with
    | .next t =>
      match issueAll ms t with
      | .next (u, rs) => .next (u, t.reply.toList ++ rs)
      | .fault r => .fault r
      | .refused r => .refused r
    | .fault r => .fault r
    | .refused r => .refused r

/-- Commands performed one after another, stopping where one gives no next state. -/
def runCommands : List Instr → State → Host.Outcome State Fault Refusal
  | [], s => .next s
  | i :: is, s =>
    match exec i s with
    | .next t => runCommands is t
    | .fault r => .fault r
    | .refused r => .refused r

/-- `STATUS` of an engine that has just completed a command other than `HASH`: no field is set. -/
def idleStatus : Status := ⟨false, false, none⟩

/-- The end of a hash with a result: `BUSY = 0`, `ERR = 0`, `DONE = 1` (R78, R189). -/
def resultReady (s : State) : Bool := !s.status.busy && s.status.done && !halted s

/-- The invariant of the machine: admissible capacities (R6), buffers in canonical form and inside their address
ranges (R60), the unconditional invariants of R43 on `PLEN`, `OCNT` and the written words of `OBUF`, no command in
progress between moves (R13), and `DONE = 0` while halted (R207). -/
structure Inv (s : State) : Prop where
  capacities  : s.params.wf
  ibufSorted  : s.ibuf.wf
  obufSorted  : s.obuf.wf
  ibufInside  : ∀ c ∈ s.ibuf, c.1 < s.params.ibufCap
  obufInside  : ∀ c ∈ s.obuf, c.1 < 8 * s.params.obufCapW
  plenBlocks  : s.plen.toNat % 168 = 0
  plenFits    : s.plen.toNat ≤ s.params.ibufCap
  ocntBlocks  : s.ocnt.toNat % 21 = 0
  ocntFits    : s.ocnt.toNat ≤ s.params.obufCapW
  obufWritten : ∀ a, a < 8 * s.ocnt.toNat → (s.obuf.lookup a).isSome = true
  idle        : s.status.busy = false
  haltedDone  : halted s = true → s.status.done = false

end Sys2Proof.Machine
end

