-- ==== Sys2Proof/Certificates/Slice0/Obligations.lean ====
section
/-! DEFINITION. The statements for the provers. Each docstring names the rule of spec/ it formalises. -/

open Sys2Proof Sys2Proof.Machine

/-! ### Encoding -/

/-- R100 to R104: a value written to `CMD` decodes to `i` exactly when `i` is well formed and the value is its
encoding, at every value of the operand; so decode of encode is the identity, and every other value is refused. -/
def Obligations.DecodeGivesExactlyTheEncodings : Prop :=
  ∀ (v : Word) (i : Instr), decodeCmd v = .ok i ↔ (WellFormed i = true ∧ v = encodeCmd i)

/-- R103: each row of the opcode map by its mask and match over the 16-bit word, with `w[4:0] <= 23` for format `R`,
and the number of legal values. -/
def Obligations.OpcodeMapSelectsByMaskAndMatch : Prop :=
  (∀ w : CmdWord,
    let d := decodeCmd (w.setWidth 64)
    let r : BitVec 5 := w.extractLsb' 0 5
    (d = .ok .theta ↔ w &&& 0xFFFF = 0x1000) ∧
    (d = .ok .rhopi ↔ w &&& 0xFFFF = 0x1100) ∧
    (d = .ok .chi ↔ w &&& 0xFFFF = 0x1200) ∧
    ((∃ q, d = .ok (.iota q)) ↔ (w &&& 0xFFE0 = 0x1300 ∧ r.toNat ≤ 23)) ∧
    ((∃ q, d = .ok (.round q)) ↔ (w &&& 0xFFE0 = 0x1800 ∧ r.toNat ≤ 23)) ∧
    (∀ q, (d = .ok (.iota q) ∨ d = .ok (.round q)) → q = r) ∧
    (d = .ok .permute ↔ w &&& 0xFFFF = 0x1900) ∧
    (d = .ok .init ↔ w &&& 0xFFFF = 0x2000) ∧
    (d = .ok .pad ↔ w &&& 0xFFFF = 0x2100) ∧
    (d = .ok .xorb ↔ w &&& 0xFFFF = 0x2200) ∧
    (d = .ok .extb ↔ w &&& 0xFFFF = 0x2300) ∧
    (d = .ok .absorb ↔ w &&& 0xFFFF = 0x2800) ∧
    (d = .ok .squeeze ↔ w &&& 0xFFFF = 0x2900) ∧
    (d = .ok .hash ↔ w &&& 0xFFFF = 0x2F00)) ∧
  ∃ legal : List Word, legal.length = 59 ∧ legal.Nodup ∧
    ∀ v : Word, v ∈ legal ↔ ∃ i, decodeCmd v = .ok i

/-- R104: a value written to `CMD` is illegal exactly when one of the five conditions holds; writing it to an engine
that is not halted raises `ILLEGAL_CMD` and does nothing else. -/
def Obligations.IllegalValuesFaultAndDoNothingElse : Prop :=
  ∀ v : Word,
    let op := v.toNat / 2 ^ 8 % 2 ^ 8
    let formatR := op = 0x13 ∨ op = 0x18
    let formatN := op = 0x10 ∨ op = 0x11 ∨ op = 0x12 ∨ op = 0x19 ∨ op = 0x20 ∨ op = 0x21 ∨ op = 0x22 ∨
      op = 0x23 ∨ op = 0x28 ∨ op = 0x29 ∨ op = 0x2F
    let illegal := v.toNat / 2 ^ 16 ≠ 0 ∨ ¬ (formatN ∨ formatR) ∨ (formatN ∧ v.toNat % 2 ^ 8 ≠ 0) ∨
      (formatR ∧ v.toNat / 2 ^ 5 % 2 ^ 3 ≠ 0) ∨
      (formatR ∧ v.toNat / 2 ^ 5 % 2 ^ 3 = 0 ∧ 24 ≤ v.toNat % 2 ^ 5)
    (¬ illegal → ∃ i, decodeCmd v = .ok i) ∧
    ∀ s : State, illegal → s.status.busy = false → s.status.err = none →
      issue (.writeReg 0 v) s = .next { s with reply := none, status := ⟨false, false, some .illegalCmd⟩ }

/-- R103: words written out from the table's bit patterns, two of them illegal neighbours. -/
def Obligations.SampleWordsDecode : Prop :=
  decodeCmd 0x1000 = .ok .theta ∧ decodeCmd 0x1305 = .ok (.iota 5) ∧ decodeCmd 0x1817 = .ok (.round 23) ∧
  decodeCmd 0x1900 = .ok .permute ∧ decodeCmd 0x2100 = .ok .pad ∧ decodeCmd 0x2F00 = .ok .hash ∧
  decodeCmd 0x1318 = .error .roundIndex ∧ decodeCmd 0x0000 = .error .opcode

/-! ### Commands and the host -/

/-- R110: when the host's next move writes a value to `CMD` that decodes to `i`, and the engine is neither halted
nor busy, the step is `exec i` on the state with that move taken and no value returned. -/
def Obligations.StepRunsTheDecodedCommand : Prop :=
  ∀ (s : State) (v : Word) (i : Instr) (rest : List HostMove),
    s.inbox = .writeReg 0 v :: rest → s.status.busy = false → s.status.err = none → decodeCmd v = .ok i →
    step s = exec i { s with inbox := rest, reply := none }

/-- R110: the write of `v` to `CMD` with `ERR = 0`. An illegal value raises `ILLEGAL_CMD`. A legal one is performed
in every state: afterwards `BUSY = 0`; if no fault was raised, `DONE` is set exactly by `HASH`; if a fault was raised
it is `CAPACITY` or `INDEX` and everything but `STATUS` is as before. With `ERR != 0` the write is ignored. -/
def Obligations.CommandWriteProtocol : Prop :=
  ∀ (s : State) (v : Word), s.status.busy = false →
    (s.status.err = none → (∀ i, decodeCmd v ≠ .ok i) →
      issue (.writeReg 0 v) s = .next { s with reply := none, status := ⟨false, false, some .illegalCmd⟩ }) ∧
    (s.status.err = none → ∀ i, decodeCmd v = .ok i →
      ∃ t, issue (.writeReg 0 v) s = .next t ∧ exec i { s with reply := none } = .next t ∧
        t.status.busy = false ∧
        (t.status.err = none → (t.status.done = true ↔ i = .hash)) ∧
        (∀ c, t.status.err = some c → (c = .capacity ∨ c = .index) ∧
          t = { s with reply := none, status := ⟨false, false, some c⟩ })) ∧
    (s.status.err ≠ none → issue (.writeReg 0 v) s = .next { s with reply := none })

/-- R224: with no move pending the engine holds its state. -/
def Obligations.IdleEngineHoldsItsState : Prop :=
  ∀ s : State, s.inbox = [] → step s = .next s

/-- R71: `HostWriteReg(n, v)` for every `n`. -/
def Obligations.HostWriteRegWritesOnlyItsRegister : Prop :=
  ∀ (s : State) (n : Nat) (v : Word), s.status.busy = false →
    (s.status.err ≠ none → issue (.writeReg n v) s = .next { s with reply := none }) ∧
    (s.status.err = none →
      (n = 0 → (∀ i, decodeCmd v = .ok i → issue (.writeReg n v) s = exec i { s with reply := none }) ∧
        ((∀ i, decodeCmd v ≠ .ok i) →
          issue (.writeReg n v) s = .next { s with reply := none, status := ⟨false, false, some .illegalCmd⟩ })) ∧
      (n = 2 → issue (.writeReg n v) s = .next { s with reply := none, ilen := v }) ∧
      (n = 3 → issue (.writeReg n v) s = .next { s with reply := none, olen := v }) ∧
      (∀ i : Fin 25, n = 32 + i.val → ∃ t, issue (.writeReg n v) s = .next t ∧
        (∀ j : Fin 25, t.a[j] = if j = i then v else s.a[j]) ∧ t = { s with reply := none, a := t.a }) ∧
      (n ≠ 0 → n ≠ 2 → n ≠ 3 → (n < 32 ∨ 57 ≤ n) → issue (.writeReg n v) s = .next { s with reply := none }))

/-- R72: `HostReadReg(n)` for every `n`, whether or not the engine is halted. -/
def Obligations.HostReadRegReturnsTheRegister : Prop :=
  ∀ (s : State) (n : Nat), s.status.busy = false →
    ∃ v, issue (.readReg n) s = .next { s with reply := some (.word v) } ∧
      (n = 0 → v = 0) ∧
      (n = 1 → v = statusWord s.status) ∧
      (n = 2 → v = s.ilen) ∧ (n = 3 → v = s.olen) ∧ (n = 4 → v = s.plen) ∧ (n = 5 → v = s.blk) ∧
      (n = 6 → v = s.ocnt) ∧
      (∀ i : Fin 25, n = 32 + i.val → v = s.a[i]) ∧
      (∀ i : Fin 25, n = 64 + i.val → v = s.b[i]) ∧
      ((7 ≤ n ∧ n < 32) ∨ (57 ≤ n ∧ n < 64) ∨ 89 ≤ n → v = 0)

/-- R34, R200: the bits of the 64-bit `STATUS`. -/
def Obligations.StatusWordHasItsFields : Prop :=
  ∀ st : Status, ∀ k : Nat, k < 64 →
    ((statusWord st).getLsbD k =
      if k = 0 then st.busy
      else if k = 1 then st.done
      else if 8 ≤ k ∧ k < 16 then
        Nat.testBit (match st.err with
          | none => 0
          | some .illegalCmd => 1
          | some .index => 2
          | some .capacity => 3) (k - 8)
      else false)

/-- R73: `HostWriteIBUF(a, b)`. The clause `s.ibuf.wf → t.ibuf.wf` is no part of R73: it is the model's own canonical
form of a buffer (log 3, DESIGN CHOICE). -/
def Obligations.HostWriteIbufWritesOneByte : Prop :=
  ∀ (s : State) (a : Nat) (b : Byte), s.status.busy = false →
    (s.status.err ≠ none → issue (.writeIbuf a b) s = .next { s with reply := none }) ∧
    (s.status.err = none → s.params.ibufCap ≤ a →
      issue (.writeIbuf a b) s = .next { s with reply := none, status := ⟨false, false, some .index⟩ }) ∧
    (s.status.err = none → a < s.params.ibufCap →
      ∃ t, issue (.writeIbuf a b) s = .next t ∧ ibufByte t a = b ∧
        (∀ k, k ≠ a → ibufByte t k = ibufByte s k) ∧ (s.ibuf.wf → t.ibuf.wf) ∧ t = { s with reply := none, ibuf := t.ibuf })

/-- R74: `HostReadIBUF(a)`. -/
def Obligations.HostReadIbufReturnsTheByte : Prop :=
  ∀ (s : State) (a : Nat), s.status.busy = false →
    (a < s.params.ibufCap →
      issue (.readIbuf a) s = .next { s with reply := some (.byte (ibufByte s a)) }) ∧
    (s.params.ibufCap ≤ a → s.status.err = none →
      issue (.readIbuf a) s =
        .next { s with reply := some (.byte 0), status := ⟨false, false, some .index⟩ }) ∧
    (s.params.ibufCap ≤ a → s.status.err ≠ none →
      issue (.readIbuf a) s = .next { s with reply := some (.byte 0) })

/-- R75: `HostReadOBUF(a)`, with the window `min(OLEN, 8 * OCNT)`. -/
def Obligations.HostReadObufIsBoundedByTheWindow : Prop :=
  ∀ (s : State) (a : Nat), s.status.busy = false →
    let win := min s.olen.toNat (8 * s.ocnt.toNat)
    (a < win → issue (.readObuf a) s = .next { s with reply := some (.byte (obufByte s a)) }) ∧
    (win ≤ a → s.status.err = none →
      issue (.readObuf a) s =
        .next { s with reply := some (.byte 0), status := ⟨false, false, some .index⟩ }) ∧
    (win ≤ a → s.status.err ≠ none →
      issue (.readObuf a) s = .next { s with reply := some (.byte 0) })

/-- R76, R207: in the halted state no move but reset changes anything except what a read returns, reads return the
current values, an out-of-range read returns 0, and `DONE = 0`. -/
def Obligations.HaltedEngineIsInert : Prop :=
  ∀ (s : State) (c : FaultCode), Inv s → s.status.err = some c →
    s.status.done = false ∧
    (∀ n v, issue (.writeReg n v) s = .next { s with reply := none }) ∧
    (∀ a b, issue (.writeIbuf a b) s = .next { s with reply := none }) ∧
    (∀ n, issue (.readReg n) s = .next { s with reply := some (.word (readReg s n)) }) ∧
    (∀ a, issue (.readIbuf a) s =
      .next { s with reply := some (.byte (if a < s.params.ibufCap then ibufByte s a else 0)) }) ∧
    (∀ a, issue (.readObuf a) s =
      .next { s with reply := some (.byte (if a < window s then obufByte s a else 0)) })

/-- R77 and 93 U1: in a state with `BUSY = 1` every transaction but `HostReadReg(1)` is refused, and that read
returns `BUSY = 1`, the current `ERR`, and `DONE = 0` (acceptance has cleared it). -/
def Obligations.BusyEngineAnswersOnlyStatus : Prop :=
  ∀ (s : State), s.status.busy = true →
    (∀ n v, issue (.writeReg n v) s = .refused .hostMoveWhileBusy) ∧
    (∀ n, n ≠ 1 → issue (.readReg n) s = .refused .hostMoveWhileBusy) ∧
    (∀ a b, issue (.writeIbuf a b) s = .refused .hostMoveWhileBusy) ∧
    (∀ a, issue (.readIbuf a) s = .refused .hostMoveWhileBusy) ∧
    (∀ a, issue (.readObuf a) s = .refused .hostMoveWhileBusy) ∧
    (s.status.done = false →
      ∃ v : Word, issue (.readReg 1) s = .next { s with reply := some (.word v) } ∧
        v.getLsbD 0 = true ∧ v.getLsbD 1 = false ∧ v.extractLsb' 8 8 = errCode s.status.err)

/-! ### Reset, faults, invariants -/

/-- R41, R230: assertion of reset, at any time, gives every piece of state its reset value; every byte of both
buffers is unspecified anew (the free value of the new reset count); and `State.reset` is such a state. The reset
count and the two capacities of `State.reset` are the model's own (logs 2 and 3). -/
def Obligations.ResetLeavesTheResetValues : Prop :=
  let holds := fun t : State =>
    (∀ x y : Fin 5, laneAt t.a x y = 0 ∧ laneAt t.b x y = 0) ∧
    t.ilen = 0 ∧ t.olen = 0 ∧ t.plen = 0 ∧ t.blk = 0 ∧ t.ocnt = 0 ∧
    t.status.busy = false ∧ t.status.done = false ∧ t.status.err = none ∧ statusWord t.status = 0 ∧
    (∀ k, t.ibuf.lookup k = none ∧ ibufByte t k = Config.ibufAtReset t.resets k) ∧
    (∀ k, t.obuf.lookup k = none ∧ obufByte t k = Config.obufAtReset t.resets k)
  holds State.reset ∧
  ∀ s : State, ∃ t, issue .reset s = .next t ∧ holds t ∧ t.resets = s.resets + 1 ∧ t.params = s.params ∧
    t.inbox = s.inbox ∧ t.reply = none

/-- R208: no command and no host transaction clears or changes a recorded fault; reset clears it. -/
def Obligations.OnlyResetClearsTheFault : Prop :=
  ∀ (s : State) (c : FaultCode), s.status.err = some c →
    (∀ m t, m ≠ .reset → issue m s = .next t → t.status.err = some c) ∧
    (∀ i, exec i s = .next s) ∧
    (∃ t, issue .reset s = .next t ∧ t.status.err = none)

/-- R206: whatever move raises a fault, exactly `ERR`, `DONE` and `BUSY` change, beside what the host's read
returns, and a faulting read returns 0. -/
def Obligations.FaultEntryIsPrecise : Prop :=
  ∀ (m : HostMove) (s t : State) (c : FaultCode), s.status.busy = false → s.status.err = none →
    issue m s = .next t → t.status.err = some c →
    t = { s with status := ⟨false, false, some c⟩, reply := t.reply } ∧
    (∀ a, (m = .readIbuf a ∨ m = .readObuf a) → t.reply = some (.byte 0)) ∧
    ((∀ a, m ≠ .readIbuf a ∧ m ≠ .readObuf a) → t.reply = none)

/-- R204: which command can raise what, and when. -/
def Obligations.EachCommandFaultsExactlyWhen : Prop :=
  (∀ (s : State) (i : Instr), WellFormed i = true → s.status.err = none →
    ∃ t, exec i s = .next t ∧
      ((i = .theta ∨ i = .rhopi ∨ i = .chi ∨ i = .permute ∨ i = .init) → t.status.err = none) ∧
      (∀ r, (i = .iota r ∨ i = .round r) → t.status.err = none) ∧
      (i = .pad → t.status.err = if s.params.ibufCap ≤ s.ilen.toNat then some .capacity else none) ∧
      ((i = .xorb ∨ i = .absorb) →
        t.status.err = if s.plen.toNat < 168 * (s.blk.toNat + 1) then some .index else none) ∧
      ((i = .extb ∨ i = .squeeze) →
        t.status.err = if s.params.obufCapW < s.ocnt.toNat + 21 then some .capacity else none) ∧
      (i = .hash → s.params.wf →
        t.status.err = if s.params.ibufCap ≤ s.ilen.toNat ∨
          s.params.obufCapW < 21 * ((((s.olen.toNat + 7) / 8) + 20) / 21) then some .capacity else none)) ∧
  (∀ v : Word, highField v = 0 → (opField v = 0x13 ∨ opField v = 0x18) →
    ((∀ i, decodeCmd v ≠ .ok i) ↔ (24 ≤ (roundField v).toNat ∨ reservedField v ≠ 0)))

/-- The invariant holds right after reset, for every admissible pair of capacities (those of `State.reset` are the
model's own choice, log 2). -/
def Obligations.InvariantHoldsAtReset : Prop :=
  Inv State.reset ∧ ∀ (p : Params) (n : Nat), p.wf → Inv (State.atReset p n)

/-- R43 and more (the canonical form of the two buffers, and `BUSY = 0` between moves, are the model's own, logs 3 and
4): every step keeps the invariant, whatever the host's move, faulting or not. -/
def Obligations.EveryStepKeepsTheInvariant : Prop :=
  ∀ s t : State, Inv s → step s = .next t → Inv t

/-- R43, R39: in a state with the invariant, a host read of `OBUF` inside the window returns a byte that was written
since reset, never an unspecified one. -/
def Obligations.WindowShowsOnlyWrittenBytes : Prop :=
  ∀ (s : State) (a : Nat), Inv s → a < window s →
    ∃ b, s.obuf.lookup a = some b ∧ issue (.readObuf a) s = .next { s with reply := some (.byte b) }

/-- R43: after a `PAD` that does not fault, if every byte of the message has been written since reset, every byte of
the padded input has. -/
def Obligations.PaddedInputIsSpecified : Prop :=
  ∀ s t : State, s.params.wf → s.status.err = none → s.ilen.toNat < s.params.ibufCap →
    (∀ a, a < s.ilen.toNat → (s.ibuf.lookup a).isSome = true) →
    exec .pad s = .next t → ∀ a, a < t.plen.toNat → (t.ibuf.lookup a).isSome = true

/-- R34: `DONE` is set by the completion of `HASH` alone: after a move that leaves `DONE = 1`, either the move was
the `HASH` command, or `DONE` was set before and the move wrote no command. -/
def Obligations.OnlyHashSetsDone : Prop :=
  ∀ (m : HostMove) (s t : State), s.status.busy = false → issue m s = .next t → t.status.done = true →
    (m = .writeReg 0 (encodeCmd .hash) ∧ s.status.err = none) ∨
    (s.status.done = true ∧ (s.status.err = none → ∀ v, m ≠ .writeReg 0 v))

/-- R28, R29, R38: no command writes `ILEN`, `OLEN` or the message bytes `IBUF[0 .. ILEN-1]`. -/
def Obligations.NoCommandWritesTheHostsInputs : Prop :=
  ∀ (i : Instr) (s t : State), exec i s = .next t →
    t.ilen = s.ilen ∧ t.olen = s.olen ∧ ∀ a, a < s.ilen.toNat → ibufByte t a = ibufByte s a

/-- R36's column "written by commands", with the composites: what each command leaves alone. Also the fields the
commands never touch. -/
def Obligations.CommandFrames : Prop :=
  ∀ (i : Instr) (s t : State), exec i s = .next t →
    (i = .rhopi ∨ i = .pad ∨ i = .extb → t.a = s.a) ∧
    (i = .theta ∨ i = .chi ∨ (∃ r, i = .iota r) ∨ i = .pad ∨ i = .xorb ∨ i = .extb → t.b = s.b) ∧
    (i ≠ .init → i ≠ .pad → i ≠ .hash → t.plen = s.plen) ∧
    (i ≠ .init → i ≠ .xorb → i ≠ .absorb → i ≠ .hash → t.blk = s.blk) ∧
    (i ≠ .init → i ≠ .extb → i ≠ .squeeze → i ≠ .hash → t.ocnt = s.ocnt) ∧
    (i ≠ .pad → i ≠ .hash → ∀ k, ibufByte t k = ibufByte s k) ∧
    (i ≠ .extb → i ≠ .squeeze → i ≠ .hash → ∀ k, obufByte t k = obufByte s k) ∧
    (i ≠ .hash → t.status.err = none → s.status.err = none → t.status = idleStatus) ∧
    t.params = s.params ∧ t.resets = s.resets ∧ t.inbox = s.inbox ∧ t.reply = s.reply

/-- R32, R43: `168 * BLK <= PLEN` is kept by every command except a `PAD`, and by a `PAD` at a length that is not
below the one already padded. -/
def Obligations.BlkBoundIsKeptExceptByPad : Prop :=
  ∀ (i : Instr) (s t : State), s.params.wf → exec i s = .next t →
    168 * s.blk.toNat ≤ s.plen.toNat → (i = .pad → s.plen.toNat ≤ 168 * (s.ilen.toNat / 168 + 1)) →
    168 * t.blk.toNat ≤ t.plen.toNat

/-! ### The lane operators and the permutation -/

/-- R9: the four lane operators. -/
def Obligations.LaneOperatorsAreAsDefined : Prop :=
  ∀ a b : Word,
    (∀ k, (a ^^^ b).getLsbD k = (a.getLsbD k != b.getLsbD k)) ∧
    (∀ k, (a &&& b).getLsbD k = (a.getLsbD k && b.getLsbD k)) ∧
    (~~~a).toNat = 2 ^ 64 - 1 - a.toNat ∧
    (∀ n, 1 ≤ n → n ≤ 63 → (rotl64 a n).toNat = a.toNat * 2 ^ n % 2 ^ 64 + a.toNat / 2 ^ (64 - n)) ∧
    rotl64 a 0 = a ∧
    (∀ n k, n ≤ 63 → k < 64 → (rotl64 a n).getLsbD ((k + n) % 64) = a.getLsbD k)

/-- R136: laws of the lane operators. -/
def Obligations.LaneOperatorLaws : Prop :=
  ∀ a b c : Word,
    a ^^^ b = b ^^^ a ∧ (a ^^^ b) ^^^ c = a ^^^ (b ^^^ c) ∧ a ^^^ 0 = a ∧ a ^^^ a = 0 ∧
    ~~~(0 : Word) = 0xFFFFFFFFFFFFFFFF ∧ ~~~(~~~a) = a ∧ (~~~a &&& a) = 0 ∧
    (∀ n, n ≤ 63 → rotl64 (a ^^^ b) n = rotl64 a n ^^^ rotl64 b n) ∧
    (∀ n, n ≤ 63 → ∃ m, m ≤ 63 ∧ rotl64 (rotl64 a n) m = a)

/-- R26, R27, and G1 of spec/93: the contents of the two tables, which the spec takes from general knowledge, and
what it says of them beside. The 24 values of `RC`, line by line of R26's table. Their bits `2^j - 1`, taken as one
sequence with index `t = j + 7r`, follow the feedback polynomial `x^8+x^6+x^5+x^4+1` of G1, and every other bit is 0;
the two repeats are as said and the only ones. The rotation offsets are those of R27's walk "start at `(x,y) = (1,0)`;
for `t` = 0..23 set `ROT[x][y] = ((t+1)(t+2)/2) mod 64` and move to `(y, (2x+3y) mod 5)`"; the 24 other than
`ROT[0][0] = 0` are distinct and below 64. -/
def Obligations.RomsAreAsTheSpecSays : Prop :=
  let walk : Nat → Fin 5 × Fin 5 := fun t => Nat.rec (1, 0) (fun _ p => (p.2, 2 * p.1 + 3 * p.2)) t
  let bit : Nat → Bool := fun t => (rc (Fin.ofNat 24 (t / 7))).getLsbD (2 ^ (t % 7) - 1)
  (rc 0, rc 8, rc 16) = (0x0000000000000001, 0x000000000000008A, 0x8000000000008002) ∧
  (rc 1, rc 9, rc 17) = (0x0000000000008082, 0x0000000000000088, 0x8000000000000080) ∧
  (rc 2, rc 10, rc 18) = (0x800000000000808A, 0x0000000080008009, 0x000000000000800A) ∧
  (rc 3, rc 11, rc 19) = (0x8000000080008000, 0x000000008000000A, 0x800000008000000A) ∧
  (rc 4, rc 12, rc 20) = (0x000000000000808B, 0x000000008000808B, 0x8000000080008081) ∧
  (rc 5, rc 13, rc 21) = (0x0000000080000001, 0x800000000000008B, 0x8000000000008080) ∧
  (rc 6, rc 14, rc 22) = (0x8000000080008081, 0x8000000000008089, 0x0000000080000001) ∧
  (rc 7, rc 15, rc 23) = (0x8000000000008009, 0x8000000000008003, 0x8000000080008008) ∧
  (∀ t : Fin 160, bit (t.val + 8) =
    (bit (t.val + 6) ^^ bit (t.val + 5) ^^ bit (t.val + 4) ^^ bit t.val)) ∧
  (∀ t : Fin 24, rot (walk t.val).1 (walk t.val).2 = (t.val + 1) * (t.val + 2) / 2 % 64) ∧
  rot 0 0 = 0 ∧ rot 1 0 = 1 ∧ rot 0 1 = 36 ∧
  (∀ x y u v : Fin 5, (x, y) ≠ (0, 0) → (u, v) ≠ (0, 0) → rot x y = rot u v → (x, y) = (u, v)) ∧
  (∀ x y : Fin 5, rot x y < 64) ∧
  (∀ r : Fin 24, rc r &&& ~~~0x800000008000808B = 0) ∧ rc 5 = rc 22 ∧ rc 6 = rc 20 ∧
  (∀ q r : Fin 24, rc q = rc r → q = r ∨ (q, r) = (5, 22) ∨ (q, r) = (22, 5) ∨ (q, r) = (6, 20) ∨ (q, r) = (20, 6))

/-- R11, R64: `BYTE` and `LE64`, each the inverse of the other, the first byte the least significant. -/
def Obligations.LittleEndianWordsAndBytes : Prop :=
  (∀ (v : Word) (k : Nat), k < 8 → (byteOf v k).toNat = v.toNat / 2 ^ (8 * k) % 256) ∧
  (∀ v : Word, le64 (bytesOfWord v) = v) ∧
  (∀ b0 b1 b2 b3 b4 b5 b6 b7 : Byte,
    (le64 [b0, b1, b2, b3, b4, b5, b6, b7]).toNat =
      b0.toNat + 2 ^ 8 * b1.toNat + 2 ^ 16 * b2.toNat + 2 ^ 24 * b3.toNat + 2 ^ 32 * b4.toNat +
      2 ^ 40 * b5.toNat + 2 ^ 48 * b6.toNat + 2 ^ 56 * b7.toNat ∧
    bytesOfWord (le64 [b0, b1, b2, b3, b4, b5, b6, b7]) = [b0, b1, b2, b3, b4, b5, b6, b7])

/-- R131: `THETA`. -/
def Obligations.ThetaResult : Prop :=
  decodeCmd 0x1000 = .ok .theta ∧
  ∀ s : State, s.status.err = none →
    let c := fun x : Fin 5 =>
      laneAt s.a x 0 ^^^ laneAt s.a x 1 ^^^ laneAt s.a x 2 ^^^ laneAt s.a x 3 ^^^ laneAt s.a x 4
    let d := fun x : Fin 5 => c (x - 1) ^^^ rotl64 (c (x + 1)) 1
    ∃ t, exec .theta s = .next t ∧
      (∀ x y, laneAt t.a x y = laneAt s.a x y ^^^ d x) ∧
      t = { s with a := t.a, status := idleStatus }

/-- R131, corner cases: `THETA` is linear over XOR. -/
def Obligations.ThetaIsLinear : Prop :=
  ∀ s1 s2 s3 t1 t2 t3 : State,
    s1.status.err = none → s2.status.err = none → s3.status.err = none →
    (∀ x y, laneAt s3.a x y = laneAt s1.a x y ^^^ laneAt s2.a x y) →
    exec .theta s1 = .next t1 → exec .theta s2 = .next t2 → exec .theta s3 = .next t3 →
    ∀ x y, laneAt t3.a x y = laneAt t1.a x y ^^^ laneAt t2.a x y

/-- R132: `RHOPI`, by the source position of each lane. -/
def Obligations.RhoPiResult : Prop :=
  decodeCmd 0x1100 = .ok .rhopi ∧
  ∀ s : State, s.status.err = none →
    ∃ t, exec .rhopi s = .next t ∧
      (∀ x y : Fin 5, laneAt t.b y (2 * x + 3 * y) = rotl64 (laneAt s.a x y) (rot x y)) ∧
      (∀ u v : Fin 5, ∃ x y : Fin 5, u = y ∧ v = 2 * x + 3 * y) ∧
      t = { s with b := t.b, status := idleStatus }

/-- R137: the pi map with its offsets, in full. -/
def Obligations.PiMapTable : Prop :=
  let table : List (Fin 25 × Nat × Fin 25) :=
    [(0, 0, 0), (1, 1, 10), (2, 62, 20), (3, 28, 5), (4, 27, 15), (5, 36, 16), (6, 44, 1), (7, 6, 11),
     (8, 55, 21), (9, 20, 6), (10, 3, 7), (11, 10, 17), (12, 43, 2), (13, 25, 12), (14, 39, 22), (15, 41, 23),
     (16, 45, 8), (17, 15, 18), (18, 21, 3), (19, 8, 13), (20, 18, 14), (21, 2, 24), (22, 61, 9), (23, 56, 19),
     (24, 14, 4)]
  (table.map (fun e => e.2.2)).Nodup ∧ table.length = 25 ∧
  ∀ s t : State, s.status.err = none → exec .rhopi s = .next t →
    ∀ e ∈ table, t.b[e.2.2] = rotl64 s.a[e.1] e.2.1

/-- R134: `CHI`. -/
def Obligations.ChiResult : Prop :=
  decodeCmd 0x1200 = .ok .chi ∧
  ∀ s : State, s.status.err = none →
    ∃ t, exec .chi s = .next t ∧
      (∀ x y, laneAt t.a x y = laneAt s.b x y ^^^ (~~~ laneAt s.b (x + 1) y &&& laneAt s.b (x + 2) y)) ∧
      t = { s with a := t.a, status := idleStatus }

/-- R135: `IOTA r`, for every legal round index. -/
def Obligations.IotaResult : Prop :=
  ∀ r : BitVec 5, (hr : r.toNat < 24) →
    decodeCmd (0x1300#64 + r.setWidth 64) = .ok (.iota r) ∧
    ∀ s : State, s.status.err = none →
      ∃ t, exec (.iota r) s = .next t ∧
        laneAt t.a 0 0 = laneAt s.a 0 0 ^^^ rc ⟨r.toNat, hr⟩ ∧
        (∀ x y : Fin 5, (x, y) ≠ (0, 0) → laneAt t.a x y = laneAt s.a x y) ∧
        t = { s with a := t.a, status := idleStatus } ∧
        exec (.iota r) t = .next { s with status := idleStatus }

/-- R150: `ROUND r` is the four steps in order; on a zero state it leaves `RC[r]` in lane (0,0) and zero elsewhere;
and after it `B` holds the round's rho+pi output. -/
def Obligations.RoundIsTheFourSteps : Prop :=
  ∀ r : BitVec 5, (hr : r.toNat < 24) →
    decodeCmd (0x1800#64 + r.setWidth 64) = .ok (.round r) ∧
    ∀ s : State, s.status.err = none →
      ∃ t1 t2 t3 t, exec .theta s = .next t1 ∧ exec .rhopi t1 = .next t2 ∧ exec .chi t2 = .next t3 ∧
        exec (.iota r) t3 = .next t ∧ exec (.round r) s = .next t ∧ t.b = t2.b ∧
        t = { s with a := t.a, b := t.b, status := idleStatus } ∧
        ((∀ x y, laneAt s.a x y = 0) →
          laneAt t.a 0 0 = rc ⟨r.toNat, hr⟩ ∧ (∀ x y : Fin 5, (x, y) ≠ (0, 0) → laneAt t.a x y = 0) ∧
          (∀ x y, laneAt t.b x y = 0))

/-- R151: `PERMUTE` is rounds 0, 1, ..., 23 in that order, and `B` is left by round 23. -/
def Obligations.PermuteIsTheRoundsInOrder : Prop :=
  decodeCmd 0x1900 = .ok .permute ∧
  ∀ s : State, s.status.err = none →
    ∃ u t, runCommands ((List.range 23).map fun r => .round (BitVec.ofNat 5 r)) s = .next u ∧
      exec (.round 23) u = .next t ∧ exec .permute s = .next t ∧
      t = { s with a := t.a, b := t.b, status := idleStatus }

/-! ### The sponge -/

/-- R161: `INIT`; and with a fault recorded it is ignored. -/
def Obligations.InitResult : Prop :=
  decodeCmd 0x2000 = .ok .init ∧
  (∀ s : State, s.status.err = none →
    ∃ t, exec .init s = .next t ∧
      (∀ x y, laneAt t.a x y = 0 ∧ laneAt t.b x y = 0) ∧ t.plen = 0 ∧ t.blk = 0 ∧ t.ocnt = 0 ∧
      t = { s with a := t.a, b := t.b, plen := t.plen, blk := t.blk, ocnt := t.ocnt, status := idleStatus } ∧
      window t = 0 ∧ exec .init t = .next t) ∧
  ∀ s : State, s.status.err ≠ none → exec .init s = .next s

/-- R165: `PAD`: the fault, the padding bytes, every other byte of `IBUF` as before; and a second `PAD` changes
nothing (on a buffer in canonical form, which the invariant gives). -/
def Obligations.PadResult : Prop :=
  decodeCmd 0x2100 = .ok .pad ∧
  ∀ s : State, s.params.wf → s.status.err = none →
    (s.params.ibufCap ≤ s.ilen.toNat →
      exec .pad s = .next { s with status := ⟨false, false, some .capacity⟩ }) ∧
    (s.ilen.toNat < s.params.ibufCap →
      let n := s.ilen.toNat
      let p := 168 * (n / 168 + 1)
      ∃ t, exec .pad s = .next t ∧ t.plen.toNat = p ∧ p ≤ s.params.ibufCap ∧
        (∀ k, k < n ∨ p ≤ k → ibufByte t k = ibufByte s k) ∧
        (n < p - 1 → ibufByte t n = 0x1F ∧ ibufByte t (p - 1) = 0x80) ∧
        (∀ k, n < k → k < p - 1 → ibufByte t k = 0) ∧
        (n = p - 1 → ibufByte t n = 0x9F) ∧
        t = { s with ibuf := t.ibuf, plen := t.plen, status := idleStatus } ∧
        (s.ibuf.wf → exec .pad t = .next t))

/-- R168: `XORB`: word `j` of the block goes to the lane with linear index `j`, the capacity lanes stay. -/
def Obligations.XorbResult : Prop :=
  decodeCmd 0x2200 = .ok .xorb ∧
  ∀ s : State, s.status.err = none →
    (s.plen.toNat < 168 * (s.blk.toNat + 1) →
      exec .xorb s = .next { s with status := ⟨false, false, some .index⟩ }) ∧
    (168 * (s.blk.toNat + 1) ≤ s.plen.toNat →
      ∃ t, exec .xorb s = .next t ∧
        (∀ j : Fin 25, j.val < 21 →
          t.a[j] = s.a[j] ^^^ le64 ((List.range 8).map fun k => ibufByte s (168 * s.blk.toNat + 8 * j.val + k))) ∧
        (∀ j : Fin 25, 21 ≤ j.val → t.a[j] = s.a[j]) ∧
        t.blk.toNat = s.blk.toNat + 1 ∧
        t = { s with a := t.a, blk := t.blk, status := idleStatus })

/-- R170: `EXTB`: the 21 words appended little-endian at word `OCNT`, every other byte of `OBUF` as before. -/
def Obligations.ExtbResult : Prop :=
  decodeCmd 0x2300 = .ok .extb ∧
  ∀ s : State, s.params.wf → s.status.err = none →
    (s.params.obufCapW < s.ocnt.toNat + 21 →
      exec .extb s = .next { s with status := ⟨false, false, some .capacity⟩ }) ∧
    (s.ocnt.toNat + 21 ≤ s.params.obufCapW →
      ∃ t, exec .extb s = .next t ∧
        (∀ j : Fin 25, j.val < 21 → ∀ k, k < 8 →
          obufByte t (8 * (s.ocnt.toNat + j.val) + k) = byteOf s.a[j] k) ∧
        (∀ k, k < 8 * s.ocnt.toNat ∨ 8 * (s.ocnt.toNat + 21) ≤ k → obufByte t k = obufByte s k) ∧
        t.ocnt.toNat = s.ocnt.toNat + 21 ∧
        t = { s with obuf := t.obuf, ocnt := t.ocnt, status := idleStatus })

/-- R65: the rate as a byte string, `S[8*i + k] = BYTE(LANE[i], k)`: `XORB` XORs the block's 168 bytes into
`S[0 .. 167]` byte for byte, and `EXTB` copies `S[0 .. 167]` to the accumulator byte for byte. -/
def Obligations.TheRateIsAByteString : Prop :=
  let rateByte := fun (s : State) (q : Nat) => byteOf (laneOfWord s.a (q / 8)) (q % 8)
  ∀ s : State, s.params.wf → s.status.err = none → ∀ q, q < 168 →
    (168 * (s.blk.toNat + 1) ≤ s.plen.toNat → ∃ t, exec .xorb s = .next t ∧
      rateByte t q = rateByte s q ^^^ ibufByte s (168 * s.blk.toNat + q)) ∧
    (s.ocnt.toNat + 21 ≤ s.params.obufCapW → ∃ t, exec .extb s = .next t ∧
      obufByte t (8 * s.ocnt.toNat + q) = rateByte s q ∧ rateByte t q = rateByte s q)

/-- R180: `ABSORB`. -/
def Obligations.AbsorbResult : Prop :=
  decodeCmd 0x2800 = .ok .absorb ∧
  ∀ s : State, s.status.err = none →
    (s.plen.toNat < 168 * (s.blk.toNat + 1) →
      exec .absorb s = .next { s with status := ⟨false, false, some .index⟩ }) ∧
    (168 * (s.blk.toNat + 1) ≤ s.plen.toNat →
      ∃ u t, exec .xorb s = .next u ∧ u.status.err = none ∧ exec .permute u = .next t ∧
        exec .absorb s = .next t ∧ t.blk.toNat = s.blk.toNat + 1 ∧
        t = { s with a := t.a, b := t.b, blk := t.blk, status := idleStatus })

/-- R182: `SQUEEZE`. -/
def Obligations.SqueezeResult : Prop :=
  decodeCmd 0x2900 = .ok .squeeze ∧
  ∀ s : State, s.params.wf → s.status.err = none →
    (s.params.obufCapW < s.ocnt.toNat + 21 →
      exec .squeeze s = .next { s with status := ⟨false, false, some .capacity⟩ }) ∧
    (s.ocnt.toNat + 21 ≤ s.params.obufCapW →
      ∃ u t, exec .extb s = .next u ∧ u.status.err = none ∧ exec .permute u = .next t ∧
        exec .squeeze s = .next t ∧ t.ocnt.toNat = s.ocnt.toNat + 21 ∧
        (∀ k, k < 8 * s.ocnt.toNat ∨ 8 * (s.ocnt.toNat + 21) ≤ k → obufByte t k = obufByte s k) ∧
        t = { s with a := t.a, b := t.b, obuf := t.obuf, ocnt := t.ocnt, status := idleStatus })

/-- R184: `HASH`: the two checks, and otherwise the state at completion: what the sequence of its pseudocode leaves,
with `DONE` set. -/
def Obligations.HashStateAtCompletion : Prop :=
  decodeCmd 0x2F00 = .ok .hash ∧
  ∀ s : State, s.params.wf → s.status.err = none →
    let n := s.ilen.toNat
    let p := 168 * (n / 168 + 1)
    let nw := (s.olen.toNat + 7) / 8
    let ns := (nw + 20) / 21
    (s.params.ibufCap ≤ n ∨ s.params.obufCapW < 21 * ns →
      exec .hash s = .next { s with status := ⟨false, false, some .capacity⟩ }) ∧
    (n < s.params.ibufCap → 21 * ns ≤ s.params.obufCapW →
      ∃ t, exec .hash s = .next t ∧
        t.plen.toNat = p ∧ t.blk.toNat = p / 168 ∧ t.ocnt.toNat = 21 * ns ∧
        t.status = ⟨false, true, none⟩ ∧
        (∀ k, k < n ∨ p ≤ k → ibufByte t k = ibufByte s k) ∧
        (n < p - 1 → ibufByte t n = 0x1F ∧ ibufByte t (p - 1) = 0x80) ∧
        (∀ k, n < k → k < p - 1 → ibufByte t k = 0) ∧
        (n = p - 1 → ibufByte t n = 0x9F) ∧
        (∀ k, 8 * (21 * ns) ≤ k → obufByte t k = obufByte s k) ∧
        runCommands ([.init, .pad] ++ List.replicate (p / 168) .absorb ++ List.replicate ns .squeeze) s =
          .next { t with status := idleStatus } ∧
        t = { s with a := t.a, b := t.b, plen := t.plen, blk := t.blk, ocnt := t.ocnt, status := t.status,
                     ibuf := t.ibuf, obuf := t.obuf })

/-- R109: the five composite commands equal their sequences, except for `DONE` after `HASH`. -/
def Obligations.CompositesEqualTheirSequences : Prop :=
  ∀ s : State, s.params.wf → s.status.err = none →
    (∀ r : BitVec 5, r.toNat < 24 → exec (.round r) s = runCommands [.theta, .rhopi, .chi, .iota r] s) ∧
    exec .permute s = runCommands ((List.range 24).map fun r => .round (BitVec.ofNat 5 r)) s ∧
    (168 * (s.blk.toNat + 1) ≤ s.plen.toNat → exec .absorb s = runCommands [.xorb, .permute] s) ∧
    (s.ocnt.toNat + 21 ≤ s.params.obufCapW → exec .squeeze s = runCommands [.extb, .permute] s) ∧
    (let ns := (((s.olen.toNat + 7) / 8) + 20) / 21
     s.ilen.toNat < s.params.ibufCap → 21 * ns ≤ s.params.obufCapW →
      ∃ t, exec .hash s = .next t ∧ t.status = ⟨false, true, none⟩ ∧
        runCommands ([.init, .pad] ++ List.replicate (s.ilen.toNat / 168 + 1) .absorb ++
          List.replicate ns .squeeze) s = .next { t with status := idleStatus })

/-- R187: `HASH`, and the hand sequence, compute `SHAKE128` of the message. -/
def Obligations.HashComputesShake128 : Prop :=
  ∀ s : State, s.params.wf → s.status.err = none →
    let n := s.ilen.toNat
    let ns := (((s.olen.toNat + 7) / 8) + 20) / 21
    let msg := (List.range n).map (ibufByte s)
    n < s.params.ibufCap → 21 * ns ≤ s.params.obufCapW →
    ∃ t u, exec .hash s = .next t ∧
      runCommands ([.init, .pad] ++ List.replicate (n / 168 + 1) .absorb ++ List.replicate ns .squeeze) s =
        .next u ∧
      (List.range s.olen.toNat).map (obufByte t) = shake128 msg s.olen.toNat ∧
      t.a = shakeSqueezed (shakeStart msg) ns ∧
      (List.range s.olen.toNat).map (obufByte u) = shake128 msg s.olen.toNat ∧
      u.a = shakeSqueezed (shakeStart msg) ns

/-- R188: `SHAKE128(M, L)` is defined for every `M` and `L`, has exactly `L` bytes, and a shorter output is a prefix
of a longer one. -/
def Obligations.Shake128LengthAndPrefix : Prop :=
  ∀ (msg : List Byte) (l1 l2 : Nat),
    (shake128 msg l1).length = l1 ∧ (l1 ≤ l2 → shake128 msg l1 = (shake128 msg l2).take l1)

/-- R78: reading back a result: after a `HASH` with `BUSY = 0`, `ERR = 0`, `DONE = 1` read in `STATUS`, the reads
`HostReadOBUF(0) ... HostReadOBUF(OLEN-1)` do not fault and give `SHAKE128` of the message. -/
def Obligations.ResultIsReadBack : Prop :=
  ∀ (s t : State), Inv s → issue (.writeReg 0 0x2F00) s = .next t →
    issue (.readReg 1) t = .next { t with reply := some (.word 2) } →
    let msg := (List.range s.ilen.toNat).map (ibufByte s)
    (shake128 msg s.olen.toNat).length = s.olen.toNat ∧
    ∀ k, (hk : k < (shake128 msg s.olen.toNat).length) →
      issue (.readObuf k) t = .next { t with reply := some (.byte (shake128 msg s.olen.toNat)[k]) }

/-- R242: a larger `OLEN` written after `HASH` widens the window up to `8 * OCNT`, and what it shows continues the
same output stream; a smaller one narrows it; neither changes `DONE`. -/
def Obligations.WindowFollowsOlen : Prop :=
  ∀ (s t : State) (len : Word), Inv s → s.status.err = none → exec .hash s = .next t → t.status.err = none →
    len.toNat ≤ 8 * t.ocnt.toNat →
    ∃ u, issue (.writeReg 3 len) t = .next u ∧ u.status.done = true ∧ window u = len.toNat ∧
      (List.range len.toNat).map (obufByte u) =
        shake128 ((List.range s.ilen.toNat).map (ibufByte s)) len.toNat

/-- R42: what `HASH` leaves and shows depends on `ILEN`, `OLEN` and the message bytes alone, whatever else the two
states held. -/
def Obligations.HashIsIndependentOfHistory : Prop :=
  ∀ s1 s2 t1 t2 : State, Inv s1 → Inv s2 → s1.ilen = s2.ilen → s1.olen = s2.olen →
    (∀ k, k < s1.ilen.toNat → ibufByte s1 k = ibufByte s2 k) →
    exec .hash s1 = .next t1 → exec .hash s2 = .next t2 →
    s1.status.err = none → s2.status.err = none → t1.status.err = none → t2.status.err = none →
    t1.a = t2.a ∧ t1.b = t2.b ∧ t1.plen = t2.plen ∧ t1.blk = t2.blk ∧ t1.ocnt = t2.ocnt ∧
    t1.status = t2.status ∧ window t1 = window t2 ∧
    (∀ k, k < window t1 → obufByte t1 k = obufByte t2 k) ∧
    (∀ k, k < t1.plen.toNat → ibufByte t1 k = ibufByte t2 k)

/-- R189: how a hash ends. The host then reads `BUSY = 0`, and either `ERR = 0` and `DONE = 1`, or `ERR != 0`; in the
second case no command does anything, and reset makes the engine ready again. There is no third outcome. -/
def Obligations.HashEndsWithAResultOrAFault : Prop :=
  ∀ s : State, Inv s → s.status.err = none →
    ∃ t, ∃ w : Word, issue (.writeReg 0 0x2F00) s = .next t ∧
      issue (.readReg 1) t = .next { t with reply := some (.word w) } ∧ w.getLsbD 0 = false ∧
      ((w.extractLsb' 8 8 = 0 ∧ w.getLsbD 1 = true ∧ resultReady t = true) ∨
       (w.extractLsb' 8 8 ≠ 0 ∧ resultReady t = false ∧ (∀ i, exec i t = .next t) ∧
        ∃ u, issue .reset t = .next u ∧ u.status = idleStatus))

/-- R236: the host's protocol, from any state with the invariant and no fault, whatever was computed before: write the
message to `IBUF`, its length to `ILEN`, the output length to `OLEN`, `HASH` to `CMD`, read `STATUS`, read
`OBUF[0 .. L-1]`. The host is returned `STATUS = 2` (`DONE`, no fault) and the bytes of `SHAKE128(M, L)`. -/
def Obligations.HostProtocolReturnsShake128 : Prop :=
  ∀ (s : State) (msg : List Byte) (len : Word), Inv s → s.status.err = none →
    msg.length < s.params.ibufCap → 21 * ((((len.toNat + 7) / 8) + 20) / 21) ≤ s.params.obufCapW →
    ∃ t, issueAll
      ((List.range msg.length).map (fun a => .writeIbuf a (msg.getD a 0)) ++
        [.writeReg 2 (BitVec.ofNat 64 msg.length), .writeReg 3 len, .writeReg 0 0x2F00, .readReg 1] ++
        (List.range len.toNat).map .readObuf) s =
      .next (t, .word 2 :: (shake128 msg len.toNat).map .byte)
end

