-- ==== Sys2Proof/Laws/Lanes.lean ====
section
/-! SUPPORT. The laws of lanes by coordinate and by linear index, and of little-endian words. -/

namespace Sys2Proof.Machine

@[simp] theorem laneAt_lanesOf (f : Fin 5 → Fin 5 → Word) (x y : Fin 5) : laneAt (lanesOf f) x y = f x y := by
  fin_cases x <;> fin_cases y <;> rfl

/-- A linear index is a coordinate pair. -/
theorem getElem_eq_laneAt (l : Lanes) (i : Fin 25) :
    l[i] = laneAt l (Fin.ofNat 5 (i.val % 5)) (Fin.ofNat 5 (i.val / 5)) := by
  fin_cases i <;> rfl

theorem getElem_lanesOf (f : Fin 5 → Fin 5 → Word) (i : Fin 25) :
    (lanesOf f)[i] = f (Fin.ofNat 5 (i.val % 5)) (Fin.ofNat 5 (i.val / 5)) := by
  rw [getElem_eq_laneAt, laneAt_lanesOf]

theorem laneOfWord_eq (l : Lanes) (j : Fin 25) : laneOfWord l j.val = l[j] := by
  rw [getElem_eq_laneAt]; rfl

/-- Lanes that agree at every coordinate pair are equal. -/
theorem lanes_ext {l m : Lanes} (h : ∀ x y, laneAt l x y = laneAt m x y) : l = m := by
  apply Vector.ext
  intro i hi
  have hl := getElem_eq_laneAt l ⟨i, hi⟩
  have hm := getElem_eq_laneAt m ⟨i, hi⟩
  simp only [Fin.getElem_fin] at hl hm
  rw [hl, hm, h]

@[simp] theorem laneAt_zeroLanes (x y : Fin 5) : laneAt zeroLanes x y = 0 := by
  simp [laneAt, zeroLanes]

theorem laneAt_set_zero (l : Lanes) (v : Word) (x y : Fin 5) :
    laneAt (l.set 0 v) x y = if x = 0 ∧ y = 0 then v else laneAt l x y := by
  fin_cases x <;> fin_cases y <;> simp [laneAt]

theorem getElem_xorRate (l : Lanes) (w : Nat → Word) (j : Fin 25) :
    (xorRate l w)[j] = if j.val < 21 then l[j] ^^^ w j.val else l[j] := by
  rw [xorRate, getElem_lanesOf, getElem_eq_laneAt]
  have e : (Fin.ofNat 5 (j.val % 5)).val + 5 * (Fin.ofNat 5 (j.val / 5)).val = j.val := by
    simp only [Fin.val_ofNat]; omega
  rw [e]

/-- `XORB`'s lanes depend on the 21 words only. -/
theorem xorRate_congr {l : Lanes} {w w' : Nat → Word} (h : ∀ j, j < 21 → w j = w' j) :
    xorRate l w = xorRate l w' := by
  apply lanes_ext
  intro x y
  simp only [xorRate, laneAt_lanesOf]
  split
  · rename_i hj; rw [h _ hj]
  · rfl

@[simp] theorem length_bytesOfWord (v : Word) : (bytesOfWord v).length = 8 := by simp [bytesOfWord]

/-- The first `n` words of a lane block as bytes. -/
theorem length_flatMap_bytes (f : Nat → Word) (n : Nat) :
    ((List.range n).flatMap fun j => bytesOfWord (f j)).length = 8 * n := by
  induction n with
  | zero => rfl
  | succ n ih => rw [List.range_succ, List.flatMap_append, List.length_append, ih]; simp; omega

@[simp] theorem length_rateBytesOf (l : Lanes) : (rateBytesOf l).length = 168 := length_flatMap_bytes _ 21

/-- Byte `8j + k` of a block of words is byte `k` of word `j`. -/
theorem getElem?_flatMap_bytes (f : Nat → Word) (n j k : Nat) (hj : j < n) (hk : k < 8) :
    ((List.range n).flatMap fun i => bytesOfWord (f i))[8 * j + k]? = some (byteOf (f j) k) := by
  induction n with
  | zero => omega
  | succ n ih =>
    rw [List.range_succ, List.flatMap_append]
    by_cases h : j < n
    · rw [List.getElem?_append_left (by rw [length_flatMap_bytes]; omega)]
      exact ih h
    · have e : j = n := by omega
      subst e
      rw [List.getElem?_append_right (by rw [length_flatMap_bytes]; omega), length_flatMap_bytes]
      simp [bytesOfWord, hk]

end Sys2Proof.Machine
end

