-- ==== Sys2Proof/Laws/Memory.lean ====
section
/-! SUPPORT. The laws of the buffers: what a read finds after writes, and that writes keep the canonical form. -/

namespace Sys2Proof.Machine

@[simp] theorem Memory.lookup_nil (a : Nat) : Memory.lookup [] a = none := rfl

/-- Read after write, at the same address and at every other. -/
theorem Memory.lookup_store (m : Memory) (a : Nat) (b : Byte) (k : Nat) :
    (m.store a b).lookup k = if k = a then some b else m.lookup k := by
  induction m with
  | nil => simp [Memory.store, Memory.lookup, eq_comm]
  | cons c rest ih =>
    obtain ⟨j, v⟩ := c
    simp only [Memory.store]
    split
    · simp [Memory.lookup, eq_comm]
    · split
      · subst a
        by_cases h : k = j <;> simp [Memory.lookup, h, eq_comm]
      · simp only [Memory.lookup, ih]
        by_cases h : j = k
        · have : k ≠ a := by omega
          simp [h, this]
        · simp [h]

/-- Read after writes of consecutive bytes. -/
theorem Memory.lookup_storeBytes (bs : List Byte) : ∀ (m : Memory) (a k : Nat),
    (m.storeBytes a bs).lookup k = if a ≤ k then (bs[k - a]?).or (m.lookup k) else m.lookup k := by
  induction bs with
  | nil => intro m a k; simp [Memory.storeBytes]
  | cons b bs ih =>
    intro m a k
    rw [Memory.storeBytes, ih, Memory.lookup_store]
    by_cases h1 : a + 1 ≤ k
    · have e : k - a = (k - (a + 1)) + 1 := by omega
      have h2 : a ≤ k := by omega
      have h3 : k ≠ a := by omega
      simp [h1, h2, h3, e]
    · by_cases h2 : k = a
      · subst h2; simp
      · have h3 : ¬ a ≤ k := by omega
        simp [h1, h2, h3]

theorem Memory.storeBytes_append (xs ys : List Byte) : ∀ (m : Memory) (a : Nat),
    m.storeBytes a (xs ++ ys) = (m.storeBytes a xs).storeBytes (a + xs.length) ys := by
  induction xs with
  | nil => intro m a; simp [Memory.storeBytes]
  | cons x xs ih =>
    intro m a
    simp only [List.cons_append, Memory.storeBytes, ih, List.length_cons]
    congr 1; omega

theorem Memory.mem_store {m : Memory} {a : Nat} {b : Byte} {c : Host.Cell} (h : c ∈ m.store a b) :
    c = (a, b) ∨ c ∈ m := by
  induction m with
  | nil => simpa [Memory.store] using h
  | cons d rest ih =>
    obtain ⟨j, v⟩ := d
    simp only [Memory.store] at h
    split at h
    · simpa using h
    · split at h
      · rcases List.mem_cons.1 h with h | h
        · exact .inl h
        · exact .inr (List.mem_cons_of_mem _ h)
      · rcases List.mem_cons.1 h with h | h
        · exact .inr (h ▸ List.mem_cons_self ..)
        · exact (ih h).imp_right (List.mem_cons_of_mem _)

/-- A write keeps the canonical form. -/
theorem Memory.wf_store {m : Memory} (h : m.wf) (a : Nat) (b : Byte) : (m.store a b).wf := by
  induction m with
  | nil => simp [Memory.store, Memory.wf]
  | cons d rest ih =>
    obtain ⟨j, v⟩ := d
    have hr : Memory.wf rest := (List.pairwise_cons.1 h).2
    have hj : ∀ c ∈ rest, j < c.1 := (List.pairwise_cons.1 h).1
    simp only [Memory.store]
    split
    · rename_i haj
      refine List.pairwise_cons.2 ⟨fun c hc => ?_, h⟩
      rcases List.mem_cons.1 hc with hc | hc
      · subst hc; exact haj
      · exact lt_trans haj (hj c hc)
    · split
      · rename_i haj
        exact List.pairwise_cons.2 ⟨fun c hc => haj ▸ hj c hc, hr⟩
      · refine List.pairwise_cons.2 ⟨fun c hc => ?_, ih hr⟩
        rcases Memory.mem_store hc with hc | hc
        · subst hc; show j < a; omega
        · exact hj c hc

theorem Memory.wf_storeBytes (bs : List Byte) : ∀ {m : Memory} (_ : m.wf) (a : Nat), (m.storeBytes a bs).wf := by
  induction bs with
  | nil => intro m h a; exact h
  | cons b bs ih => intro m h a; exact ih (Memory.wf_store h a b) (a + 1)

/-- Writes below a bound keep every listed address below it. -/
theorem Memory.inside_store {m : Memory} {n : Nat} (h : ∀ c ∈ m, c.1 < n) {a : Nat} (ha : a < n) (b : Byte) :
    ∀ c ∈ m.store a b, c.1 < n := fun c hc => by
  rcases Memory.mem_store hc with rfl | hc
  · exact ha
  · exact h c hc

theorem Memory.inside_storeBytes (bs : List Byte) : ∀ {m : Memory} {n : Nat} (_ : ∀ c ∈ m, c.1 < n) {a : Nat}
    (_ : a + bs.length ≤ n), ∀ c ∈ m.storeBytes a bs, c.1 < n := by
  induction bs with
  | nil => intro m n h a _; exact h
  | cons b bs ih =>
    intro m n h a ha
    simp only [List.length_cons] at ha
    exact ih (Memory.inside_store h (by omega) b) (by omega)

/-- In canonical form an address below the first listed one is not listed. -/
theorem Memory.lookup_of_lt {m : Memory} {j : Nat} (h : ∀ c ∈ m, j < c.1) : m.lookup j = none := by
  induction m with
  | nil => rfl
  | cons d rest ih =>
    obtain ⟨k, v⟩ := d
    have hk : j < k := h (k, v) (List.mem_cons_self ..)
    have hne : k ≠ j := by omega
    simp only [Memory.lookup, hne, if_false]
    exact ih fun c hc => h c (List.mem_cons_of_mem _ hc)

/-- Two memories in canonical form that list the same bytes are equal. -/
theorem Memory.ext_of_wf : ∀ {m n : Memory}, m.wf → n.wf → (∀ k, m.lookup k = n.lookup k) → m = n := by
  intro m
  induction m with
  | nil =>
    intro n _ _ h
    cases n with
    | nil => rfl
    | cons d rest => obtain ⟨j, v⟩ := d; have := h j; simp [Memory.lookup] at this
  | cons d rest ih =>
    obtain ⟨j, v⟩ := d
    intro n hm hn h
    have hj := (List.pairwise_cons.1 hm).1
    cases n with
    | nil => have := h j; simp [Memory.lookup] at this
    | cons e rest' =>
      obtain ⟨j', v'⟩ := e
      have hj' := (List.pairwise_cons.1 hn).1
      have hjj : j = j' := by
        rcases Nat.lt_trichotomy j j' with hlt | heq | hlt
        · have h1 := h j
          rw [show Memory.lookup ((j', v') :: rest') j = none from
            Memory.lookup_of_lt (by
              intro c hc
              rcases List.mem_cons.1 hc with rfl | hc
              · exact hlt
              · exact lt_trans hlt (hj' c hc))] at h1
          simp [Memory.lookup] at h1
        · exact heq
        · have h1 := h j'
          rw [show Memory.lookup ((j, v) :: rest) j' = none from
            Memory.lookup_of_lt (by
              intro c hc
              rcases List.mem_cons.1 hc with rfl | hc
              · exact hlt
              · exact lt_trans hlt (hj c hc))] at h1
          simp [Memory.lookup] at h1
      subst hjj
      have hv : v = v' := by simpa [Memory.lookup] using h j
      subst hv
      congr 1
      refine ih (List.pairwise_cons.1 hm).2 (List.pairwise_cons.1 hn).2 fun k => ?_
      by_cases hk : j = k
      · subst hk
        rw [Memory.lookup_of_lt hj, Memory.lookup_of_lt hj']
      · simpa [Memory.lookup, hk] using h k

end Sys2Proof.Machine
end

