-- ==== Sys2Proof/Laws/State.lean ====
section
/-! SUPPORT. One lemma per field per named update of State, each true by `rfl`, so that no later proof unfolds a
record update. -/

namespace Sys2Proof.Machine

/-! ### `raiseFault` -/

@[simp] theorem raiseFault_params (c : FaultCode) (s : State) : (raiseFault c s).params = s.params := rfl
@[simp] theorem raiseFault_a (c : FaultCode) (s : State) : (raiseFault c s).a = s.a := rfl
@[simp] theorem raiseFault_b (c : FaultCode) (s : State) : (raiseFault c s).b = s.b := rfl
@[simp] theorem raiseFault_ilen (c : FaultCode) (s : State) : (raiseFault c s).ilen = s.ilen := rfl
@[simp] theorem raiseFault_olen (c : FaultCode) (s : State) : (raiseFault c s).olen = s.olen := rfl
@[simp] theorem raiseFault_plen (c : FaultCode) (s : State) : (raiseFault c s).plen = s.plen := rfl
@[simp] theorem raiseFault_blk (c : FaultCode) (s : State) : (raiseFault c s).blk = s.blk := rfl
@[simp] theorem raiseFault_ocnt (c : FaultCode) (s : State) : (raiseFault c s).ocnt = s.ocnt := rfl
@[simp] theorem raiseFault_status (c : FaultCode) (s : State) : (raiseFault c s).status = faultStatus c := rfl
@[simp] theorem raiseFault_ibuf (c : FaultCode) (s : State) : (raiseFault c s).ibuf = s.ibuf := rfl
@[simp] theorem raiseFault_obuf (c : FaultCode) (s : State) : (raiseFault c s).obuf = s.obuf := rfl
@[simp] theorem raiseFault_resets (c : FaultCode) (s : State) : (raiseFault c s).resets = s.resets := rfl
@[simp] theorem raiseFault_inbox (c : FaultCode) (s : State) : (raiseFault c s).inbox = s.inbox := rfl
@[simp] theorem raiseFault_reply (c : FaultCode) (s : State) : (raiseFault c s).reply = s.reply := rfl

/-! ### `writeIbuf` -/

@[simp] theorem writeIbuf_params (s : State) (k : Nat) (v : Byte) : (writeIbuf s k v).params = s.params := rfl
@[simp] theorem writeIbuf_a (s : State) (k : Nat) (v : Byte) : (writeIbuf s k v).a = s.a := rfl
@[simp] theorem writeIbuf_b (s : State) (k : Nat) (v : Byte) : (writeIbuf s k v).b = s.b := rfl
@[simp] theorem writeIbuf_ilen (s : State) (k : Nat) (v : Byte) : (writeIbuf s k v).ilen = s.ilen := rfl
@[simp] theorem writeIbuf_olen (s : State) (k : Nat) (v : Byte) : (writeIbuf s k v).olen = s.olen := rfl
@[simp] theorem writeIbuf_plen (s : State) (k : Nat) (v : Byte) : (writeIbuf s k v).plen = s.plen := rfl
@[simp] theorem writeIbuf_blk (s : State) (k : Nat) (v : Byte) : (writeIbuf s k v).blk = s.blk := rfl
@[simp] theorem writeIbuf_ocnt (s : State) (k : Nat) (v : Byte) : (writeIbuf s k v).ocnt = s.ocnt := rfl
@[simp] theorem writeIbuf_status (s : State) (k : Nat) (v : Byte) : (writeIbuf s k v).status = s.status := rfl
@[simp] theorem writeIbuf_ibuf (s : State) (k : Nat) (v : Byte) : (writeIbuf s k v).ibuf = s.ibuf.store k v := rfl
@[simp] theorem writeIbuf_obuf (s : State) (k : Nat) (v : Byte) : (writeIbuf s k v).obuf = s.obuf := rfl
@[simp] theorem writeIbuf_resets (s : State) (k : Nat) (v : Byte) : (writeIbuf s k v).resets = s.resets := rfl
@[simp] theorem writeIbuf_inbox (s : State) (k : Nat) (v : Byte) : (writeIbuf s k v).inbox = s.inbox := rfl
@[simp] theorem writeIbuf_reply (s : State) (k : Nat) (v : Byte) : (writeIbuf s k v).reply = s.reply := rfl

/-! ### `writeObufWord` -/

@[simp] theorem writeObufWord_params (s : State) (k : Nat) (v : Word) : (writeObufWord s k v).params = s.params := rfl
@[simp] theorem writeObufWord_a (s : State) (k : Nat) (v : Word) : (writeObufWord s k v).a = s.a := rfl
@[simp] theorem writeObufWord_b (s : State) (k : Nat) (v : Word) : (writeObufWord s k v).b = s.b := rfl
@[simp] theorem writeObufWord_ilen (s : State) (k : Nat) (v : Word) : (writeObufWord s k v).ilen = s.ilen := rfl
@[simp] theorem writeObufWord_olen (s : State) (k : Nat) (v : Word) : (writeObufWord s k v).olen = s.olen := rfl
@[simp] theorem writeObufWord_plen (s : State) (k : Nat) (v : Word) : (writeObufWord s k v).plen = s.plen := rfl
@[simp] theorem writeObufWord_blk (s : State) (k : Nat) (v : Word) : (writeObufWord s k v).blk = s.blk := rfl
@[simp] theorem writeObufWord_ocnt (s : State) (k : Nat) (v : Word) : (writeObufWord s k v).ocnt = s.ocnt := rfl
@[simp] theorem writeObufWord_status (s : State) (k : Nat) (v : Word) : (writeObufWord s k v).status = s.status := rfl
@[simp] theorem writeObufWord_ibuf (s : State) (k : Nat) (v : Word) : (writeObufWord s k v).ibuf = s.ibuf := rfl
@[simp] theorem writeObufWord_obuf (s : State) (k : Nat) (v : Word) : (writeObufWord s k v).obuf = s.obuf.storeBytes k (bytesOfWord v) := rfl
@[simp] theorem writeObufWord_resets (s : State) (k : Nat) (v : Word) : (writeObufWord s k v).resets = s.resets := rfl
@[simp] theorem writeObufWord_inbox (s : State) (k : Nat) (v : Word) : (writeObufWord s k v).inbox = s.inbox := rfl
@[simp] theorem writeObufWord_reply (s : State) (k : Nat) (v : Word) : (writeObufWord s k v).reply = s.reply := rfl

/-! ### `thetaState` -/

@[simp] theorem thetaState_params (s : State) : (thetaState s).params = s.params := rfl
@[simp] theorem thetaState_a (s : State) : (thetaState s).a = thetaLanes s.a := rfl
@[simp] theorem thetaState_b (s : State) : (thetaState s).b = s.b := rfl
@[simp] theorem thetaState_ilen (s : State) : (thetaState s).ilen = s.ilen := rfl
@[simp] theorem thetaState_olen (s : State) : (thetaState s).olen = s.olen := rfl
@[simp] theorem thetaState_plen (s : State) : (thetaState s).plen = s.plen := rfl
@[simp] theorem thetaState_blk (s : State) : (thetaState s).blk = s.blk := rfl
@[simp] theorem thetaState_ocnt (s : State) : (thetaState s).ocnt = s.ocnt := rfl
@[simp] theorem thetaState_status (s : State) : (thetaState s).status = s.status := rfl
@[simp] theorem thetaState_ibuf (s : State) : (thetaState s).ibuf = s.ibuf := rfl
@[simp] theorem thetaState_obuf (s : State) : (thetaState s).obuf = s.obuf := rfl
@[simp] theorem thetaState_resets (s : State) : (thetaState s).resets = s.resets := rfl
@[simp] theorem thetaState_inbox (s : State) : (thetaState s).inbox = s.inbox := rfl
@[simp] theorem thetaState_reply (s : State) : (thetaState s).reply = s.reply := rfl

/-! ### `rhoPiState` -/

@[simp] theorem rhoPiState_params (s : State) : (rhoPiState s).params = s.params := rfl
@[simp] theorem rhoPiState_a (s : State) : (rhoPiState s).a = s.a := rfl
@[simp] theorem rhoPiState_b (s : State) : (rhoPiState s).b = rhoPiLanes s.a := rfl
@[simp] theorem rhoPiState_ilen (s : State) : (rhoPiState s).ilen = s.ilen := rfl
@[simp] theorem rhoPiState_olen (s : State) : (rhoPiState s).olen = s.olen := rfl
@[simp] theorem rhoPiState_plen (s : State) : (rhoPiState s).plen = s.plen := rfl
@[simp] theorem rhoPiState_blk (s : State) : (rhoPiState s).blk = s.blk := rfl
@[simp] theorem rhoPiState_ocnt (s : State) : (rhoPiState s).ocnt = s.ocnt := rfl
@[simp] theorem rhoPiState_status (s : State) : (rhoPiState s).status = s.status := rfl
@[simp] theorem rhoPiState_ibuf (s : State) : (rhoPiState s).ibuf = s.ibuf := rfl
@[simp] theorem rhoPiState_obuf (s : State) : (rhoPiState s).obuf = s.obuf := rfl
@[simp] theorem rhoPiState_resets (s : State) : (rhoPiState s).resets = s.resets := rfl
@[simp] theorem rhoPiState_inbox (s : State) : (rhoPiState s).inbox = s.inbox := rfl
@[simp] theorem rhoPiState_reply (s : State) : (rhoPiState s).reply = s.reply := rfl

/-! ### `chiState` -/

@[simp] theorem chiState_params (s : State) : (chiState s).params = s.params := rfl
@[simp] theorem chiState_a (s : State) : (chiState s).a = chiLanes s.b := rfl
@[simp] theorem chiState_b (s : State) : (chiState s).b = s.b := rfl
@[simp] theorem chiState_ilen (s : State) : (chiState s).ilen = s.ilen := rfl
@[simp] theorem chiState_olen (s : State) : (chiState s).olen = s.olen := rfl
@[simp] theorem chiState_plen (s : State) : (chiState s).plen = s.plen := rfl
@[simp] theorem chiState_blk (s : State) : (chiState s).blk = s.blk := rfl
@[simp] theorem chiState_ocnt (s : State) : (chiState s).ocnt = s.ocnt := rfl
@[simp] theorem chiState_status (s : State) : (chiState s).status = s.status := rfl
@[simp] theorem chiState_ibuf (s : State) : (chiState s).ibuf = s.ibuf := rfl
@[simp] theorem chiState_obuf (s : State) : (chiState s).obuf = s.obuf := rfl
@[simp] theorem chiState_resets (s : State) : (chiState s).resets = s.resets := rfl
@[simp] theorem chiState_inbox (s : State) : (chiState s).inbox = s.inbox := rfl
@[simp] theorem chiState_reply (s : State) : (chiState s).reply = s.reply := rfl

/-! ### `iotaState` -/

@[simp] theorem iotaState_params (r : Fin 24) (s : State) : (iotaState r s).params = s.params := rfl
@[simp] theorem iotaState_a (r : Fin 24) (s : State) : (iotaState r s).a = iotaLanes r s.a := rfl
@[simp] theorem iotaState_b (r : Fin 24) (s : State) : (iotaState r s).b = s.b := rfl
@[simp] theorem iotaState_ilen (r : Fin 24) (s : State) : (iotaState r s).ilen = s.ilen := rfl
@[simp] theorem iotaState_olen (r : Fin 24) (s : State) : (iotaState r s).olen = s.olen := rfl
@[simp] theorem iotaState_plen (r : Fin 24) (s : State) : (iotaState r s).plen = s.plen := rfl
@[simp] theorem iotaState_blk (r : Fin 24) (s : State) : (iotaState r s).blk = s.blk := rfl
@[simp] theorem iotaState_ocnt (r : Fin 24) (s : State) : (iotaState r s).ocnt = s.ocnt := rfl
@[simp] theorem iotaState_status (r : Fin 24) (s : State) : (iotaState r s).status = s.status := rfl
@[simp] theorem iotaState_ibuf (r : Fin 24) (s : State) : (iotaState r s).ibuf = s.ibuf := rfl
@[simp] theorem iotaState_obuf (r : Fin 24) (s : State) : (iotaState r s).obuf = s.obuf := rfl
@[simp] theorem iotaState_resets (r : Fin 24) (s : State) : (iotaState r s).resets = s.resets := rfl
@[simp] theorem iotaState_inbox (r : Fin 24) (s : State) : (iotaState r s).inbox = s.inbox := rfl
@[simp] theorem iotaState_reply (r : Fin 24) (s : State) : (iotaState r s).reply = s.reply := rfl

/-! ### `initState` -/

@[simp] theorem initState_params (s : State) : (initState s).params = s.params := rfl
@[simp] theorem initState_a (s : State) : (initState s).a = zeroLanes := rfl
@[simp] theorem initState_b (s : State) : (initState s).b = zeroLanes := rfl
@[simp] theorem initState_ilen (s : State) : (initState s).ilen = s.ilen := rfl
@[simp] theorem initState_olen (s : State) : (initState s).olen = s.olen := rfl
@[simp] theorem initState_plen (s : State) : (initState s).plen = 0 := rfl
@[simp] theorem initState_blk (s : State) : (initState s).blk = 0 := rfl
@[simp] theorem initState_ocnt (s : State) : (initState s).ocnt = 0 := rfl
@[simp] theorem initState_status (s : State) : (initState s).status = s.status := rfl
@[simp] theorem initState_ibuf (s : State) : (initState s).ibuf = s.ibuf := rfl
@[simp] theorem initState_obuf (s : State) : (initState s).obuf = s.obuf := rfl
@[simp] theorem initState_resets (s : State) : (initState s).resets = s.resets := rfl
@[simp] theorem initState_inbox (s : State) : (initState s).inbox = s.inbox := rfl
@[simp] theorem initState_reply (s : State) : (initState s).reply = s.reply := rfl

/-! ### `applyReset` -/

@[simp] theorem applyReset_params (s : State) : (applyReset s).params = s.params := rfl
@[simp] theorem applyReset_a (s : State) : (applyReset s).a = zeroLanes := rfl
@[simp] theorem applyReset_b (s : State) : (applyReset s).b = zeroLanes := rfl
@[simp] theorem applyReset_ilen (s : State) : (applyReset s).ilen = 0 := rfl
@[simp] theorem applyReset_olen (s : State) : (applyReset s).olen = 0 := rfl
@[simp] theorem applyReset_plen (s : State) : (applyReset s).plen = 0 := rfl
@[simp] theorem applyReset_blk (s : State) : (applyReset s).blk = 0 := rfl
@[simp] theorem applyReset_ocnt (s : State) : (applyReset s).ocnt = 0 := rfl
@[simp] theorem applyReset_status (s : State) : (applyReset s).status = ⟨false, false, none⟩ := rfl
@[simp] theorem applyReset_ibuf (s : State) : (applyReset s).ibuf = [] := rfl
@[simp] theorem applyReset_obuf (s : State) : (applyReset s).obuf = [] := rfl
@[simp] theorem applyReset_resets (s : State) : (applyReset s).resets = s.resets + 1 := rfl
@[simp] theorem applyReset_inbox (s : State) : (applyReset s).inbox = s.inbox := rfl
@[simp] theorem applyReset_reply (s : State) : (applyReset s).reply = none := rfl

end Sys2Proof.Machine
end

