-- ==== Sys2Proof/Laws/Permutation.lean ====
section
/-! SUPPORT. The permutation on the state is the permutation on lanes, and leaves everything but `A` and `B`. -/

namespace Sys2Proof.Machine

/-- Every position is the destination of its pi source, and the only one (R137). -/
theorem piSource_dest (x y : Fin 5) : piSource y (2 * x + 3 * y) = (x, y) := by
  revert x y; decide

@[simp] theorem laneAt_thetaLanes (l : Lanes) (x y : Fin 5) :
    laneAt (thetaLanes l) x y = laneAt l x y ^^^ thetaTerm l x := laneAt_lanesOf _ x y

theorem laneAt_rhoPiLanes (l : Lanes) (x y : Fin 5) :
    laneAt (rhoPiLanes l) y (2 * x + 3 * y) = rotl64 (laneAt l x y) (rot x y) := by
  rw [rhoPiLanes, laneAt_lanesOf, piSource_dest]

@[simp] theorem laneAt_chiLanes (l : Lanes) (x y : Fin 5) :
    laneAt (chiLanes l) x y = laneAt l x y ^^^ (~~~ laneAt l (x + 1) y &&& laneAt l (x + 2) y) :=
  laneAt_lanesOf _ x y

theorem laneAt_iotaLanes (r : Fin 24) (l : Lanes) (x y : Fin 5) :
    laneAt (iotaLanes r l) x y = if x = 0 ∧ y = 0 then laneAt l 0 0 ^^^ rc r else laneAt l x y := by
  rw [iotaLanes, laneAt_set_zero]; rfl

/-- One round on the state. -/
theorem roundState_eq (r : Fin 24) (s : State) :
    roundState r s = { s with a := roundLanes r s.a, b := rhoPiLanes (thetaLanes s.a) } := rfl

/-- Rounds on lanes, in the order of a list. -/
def roundsLanes (rs : List (Fin 24)) (l : Lanes) : Lanes := rs.foldl (fun m r => roundLanes r m) l

/-- The rounds of a list on the state: `A` by the lane function, `B` by the last round, nothing else. -/
theorem foldl_roundState_eq (rs : List (Fin 24)) (s : State) :
    rs.foldl (fun t r => roundState r t) s =
      { s with a := roundsLanes rs s.a
               b := if rs = [] then s.b else rhoPiLanes (thetaLanes (roundsLanes rs.dropLast s.a)) } := by
  induction rs generalizing s with
  | nil => simp [roundsLanes]
  | cons r rs ih =>
    rw [List.foldl_cons, ih, roundState_eq]
    cases rs with
    | nil => simp [roundsLanes]
    | cons q qs => simp [roundsLanes, List.dropLast]

/-- What `B` holds after a permutation: round 23's rho+pi output (R151). -/
def permuteBuffer (l : Lanes) : Lanes := rhoPiLanes (thetaLanes (roundsLanes (List.finRange 24).dropLast l))

/-- `PERMUTE` on the state (R151). -/
theorem permuteState_eq (s : State) : permuteState s = { s with a := keccakF s.a, b := permuteBuffer s.a } := by
  rw [permuteState, foldl_roundState_eq]
  have h : List.finRange 24 ≠ [] := by decide
  simp only [h, if_false]
  rfl

/-- The rule of a format `R` command with a legal round index. -/
theorem withRound_legal {r : BitVec 5} (h : r.toNat < 24) (rule : Fin 24 → State → State) (s : State) :
    withRound r rule s = .ok (rule ⟨r.toNat, h⟩ s) := by
  simp [withRound, h]

end Sys2Proof.Machine
end

