-- ==== Sys2Proof/Laws/Sponge.lean ====
section
/-! SUPPORT. What the rules of the sponge commands do, each said once: `PAD`, `XORB`, `EXTB`, `ABSORB`, `SQUEEZE` and
the two loops of `HASH`. -/

namespace Sys2Proof.Machine

/-! ### `PAD` -/

theorem paddedLen_bounds (n : Nat) : n < paddedLen n ∧ paddedLen n ≤ n + 168 ∧ paddedLen n % 168 = 0 := by
  unfold paddedLen; omega

/-- "`ILEN < IBUF_CAP` is the same as `p <= IBUF_CAP`" (R165). -/
theorem paddedLen_le {n c : Nat} (hc : c % 168 = 0) (h : n < c) : paddedLen n ≤ c := by
  unfold paddedLen; omega

/-- The padding bytes as one write of consecutive bytes, then the last byte. -/
theorem padBytes_eq (s : State) (n : Nat) :
    padBytes s n = { s with ibuf := (padBytes s n).ibuf } := rfl

/-- What `IBUF` lists after the padding writes (R165). -/
theorem lookup_padBytes (s : State) (n k : Nat) :
    (padBytes s n).ibuf.lookup k =
      if k = paddedLen n - 1 then some (if n = paddedLen n - 1 then dsuf ^^^ finalBit else finalBit)
      else if k = n then some dsuf
      else if n < k ∧ k < paddedLen n then some 0
      else s.ibuf.lookup k := by
  obtain ⟨h1, -, -⟩ := paddedLen_bounds n
  generalize hp : paddedLen n = p at *
  have key : ∀ j, ((s.ibuf.store n dsuf).storeBytes (n + 1) (List.replicate (p - 1 - n) 0)).lookup j =
      if n < j ∧ j < p then some 0 else if j = n then some dsuf else s.ibuf.lookup j := by
    intro j
    rw [Memory.lookup_storeBytes, Memory.lookup_store]
    by_cases hj : n + 1 ≤ j
    · by_cases hj2 : j < p
      · have : j - (n + 1) < p - 1 - n := by omega
        simp [hj, hj2, this, show n < j by omega]
      · have : ¬ j - (n + 1) < p - 1 - n := by omega
        simp [hj, hj2, this]
    · simp [hj, show ¬ n < j by omega]
  simp only [padBytes, hp, writeIbuf_ibuf, Memory.lookup_store, ibufByte, key]
  by_cases hk : k = p - 1
  · subst hk
    by_cases hn : n = p - 1
    · simp only [hn, if_true]; simp
    · have : n < p - 1 := by omega
      simp [hn, this, show p - 1 < p by omega]
  · simp only [hk, if_false]
    by_cases hkn : k = n
    · simp [hkn]
    · simp [hkn]

theorem wf_padBytes {s : State} (h : s.ibuf.wf) (n : Nat) : (padBytes s n).ibuf.wf :=
  Memory.wf_store (Memory.wf_storeBytes _ (Memory.wf_store h _ _) _) _ _

theorem inside_padBytes {s : State} {c : Nat} (h : ∀ e ∈ s.ibuf, e.1 < c) {n : Nat} (hp : paddedLen n ≤ c) :
    ∀ e ∈ (padBytes s n).ibuf, e.1 < c := by
  obtain ⟨h1, -, -⟩ := paddedLen_bounds n
  refine Memory.inside_store (Memory.inside_storeBytes _ (Memory.inside_store h (by omega) _) ?_) (by omega) _
  simp only [List.length_replicate]; omega

/-- The bytes of `IBUF` after the padding writes (R165). -/
theorem ibufByte_padBytes (s : State) (n k : Nat) :
    ibufByte (padBytes s n) k =
      if k = paddedLen n - 1 then (if n = paddedLen n - 1 then dsuf ^^^ finalBit else finalBit)
      else if k = n then dsuf
      else if n < k ∧ k < paddedLen n then 0
      else ibufByte s k := by
  unfold ibufByte
  rw [lookup_padBytes]
  have : (padBytes s n).resets = s.resets := rfl
  rw [this]
  split
  · rfl
  · split
    · rfl
    · split <;> rfl

theorem padRule_error {s : State} (h : s.params.ibufCap ≤ s.ilen.toNat) : padRule s = .error .capacity := by
  simp [padRule, h]

theorem padRule_ok {s : State} (h : s.ilen.toNat < s.params.ibufCap) :
    padRule s =
      .ok { s with ibuf := (padBytes s s.ilen.toNat).ibuf
                   plen := BitVec.ofNat 64 (paddedLen s.ilen.toNat) } := by
  rw [padRule, if_neg (by omega), padBytes_eq]

/-! ### `XORB` -/

theorem xorbRule_error {s : State} (h : s.plen.toNat < 168 * (s.blk.toNat + 1)) : xorbRule s = .error .index := by
  simp [xorbRule, h]

/-- The words `XORB` reads from block `BLK` of `IBUF`. -/
def blockWord (s : State) (k j : Nat) : Word := ibufWord s (168 * k + 8 * j)

theorem xorbRule_ok {s : State} (h : 168 * (s.blk.toNat + 1) ≤ s.plen.toNat) :
    xorbRule s = .ok { s with a := xorRate s.a (blockWord s s.blk.toNat), blk := s.blk + 1 } := by
  rw [xorbRule, if_neg (by omega)]; rfl

/-! ### `EXTB` -/

theorem foldl_writeObufWord (s : State) (f : Nat → Word) (o n : Nat) :
    (List.range n).foldl (fun t j => writeObufWord t (8 * (o + j)) (f j)) s =
      { s with obuf := s.obuf.storeBytes (8 * o) ((List.range n).flatMap fun j => bytesOfWord (f j)) } := by
  induction n with
  | zero => rfl
  | succ n ih =>
    rw [List.range_succ, List.foldl_append, ih, List.flatMap_append, Memory.storeBytes_append,
      length_flatMap_bytes]
    simp [writeObufWord, Nat.mul_add]

theorem extbRule_error {s : State} (h : s.params.obufCapW < s.ocnt.toNat + 21) : extbRule s = .error .capacity := by
  simp [extbRule, h]

theorem extbRule_ok {s : State} (h : s.ocnt.toNat + 21 ≤ s.params.obufCapW) :
    extbRule s =
      .ok { s with obuf := s.obuf.storeBytes (8 * s.ocnt.toNat) (rateBytesOf s.a), ocnt := s.ocnt + 21 } := by
  rw [extbRule, if_neg (by omega), foldl_writeObufWord]
  simp only [rateBytesOf]

/-- The bytes of `OBUF` after an `EXTB` at word `o` (R170). -/
theorem lookup_storeRate (m : Memory) (o : Nat) (l : Lanes) (k : Nat) :
    (m.storeBytes (8 * o) (rateBytesOf l)).lookup k =
      if 8 * o ≤ k ∧ k < 8 * (o + 21) then (rateBytesOf l)[k - 8 * o]? else m.lookup k := by
  rw [Memory.lookup_storeBytes]
  by_cases h1 : 8 * o ≤ k
  · by_cases h2 : k < 8 * (o + 21)
    · have : k - 8 * o < (rateBytesOf l).length := by rw [length_rateBytesOf]; omega
      simp [h1, h2, List.getElem?_eq_getElem this]
    · have : (rateBytesOf l).length ≤ k - 8 * o := by rw [length_rateBytesOf]; omega
      simp [h1, h2, List.getElem?_eq_none this]
  · simp [h1]

/-! ### `ABSORB`, `SQUEEZE` -/

theorem absorbRule_error {s : State} (h : s.plen.toNat < 168 * (s.blk.toNat + 1)) :
    absorbRule s = .error .index := by
  simp [absorbRule, xorbRule_error h, bind, Except.bind]

/-- One iteration of absorbing on a block of lanes (R180). -/
def absorbLanes (s : State) (k : Nat) (l : Lanes) : Lanes := keccakF (xorRate l (blockWord s k))

theorem absorbRule_ok {s : State} (h : 168 * (s.blk.toNat + 1) ≤ s.plen.toNat) :
    absorbRule s =
      .ok { s with a := absorbLanes s s.blk.toNat s.a
                   b := permuteBuffer (xorRate s.a (blockWord s s.blk.toNat))
                   blk := s.blk + 1 } := by
  simp only [absorbRule, xorbRule_ok h, bind, Except.bind, pure, Except.pure, permuteState_eq]
  rfl

theorem squeezeRule_error {s : State} (h : s.params.obufCapW < s.ocnt.toNat + 21) :
    squeezeRule s = .error .capacity := by
  simp [squeezeRule, extbRule_error h, bind, Except.bind]

theorem squeezeRule_ok {s : State} (h : s.ocnt.toNat + 21 ≤ s.params.obufCapW) :
    squeezeRule s =
      .ok { s with a := keccakF s.a, b := permuteBuffer s.a
                   obuf := s.obuf.storeBytes (8 * s.ocnt.toNat) (rateBytesOf s.a), ocnt := s.ocnt + 21 } := by
  simp only [squeezeRule, extbRule_ok h, bind, Except.bind, pure, Except.pure, permuteState_eq]

/-! ### The loops of `HASH` -/

/-- `A` and `B` after `n` more blocks, from block `k`, of the buffer that `s` holds. -/
def absorbPair (s : State) : Nat → Nat → Lanes × Lanes → Lanes × Lanes
  | _, 0, p => p
  | k, n + 1, p =>
    absorbPair s (k + 1) n (absorbLanes s k p.1, permuteBuffer (xorRate p.1 (blockWord s k)))

theorem toNat_add_one {x : Word} {m : Nat} (h : x.toNat + 1 ≤ m) (hm : m < 2 ^ 64) :
    (x + 1).toNat = x.toNat + 1 := by
  have h1 : (1 : Word).toNat = 1 := rfl
  rw [BitVec.toNat_add, h1]; omega

theorem blockWord_congr {s t : State} (hi : t.ibuf = s.ibuf) (hr : t.resets = s.resets) :
    blockWord t = blockWord s := by
  funext k j
  simp only [blockWord, ibufWord, ibufByte, hi, hr]

theorem absorbPair_congr {s t : State} (hi : t.ibuf = s.ibuf) (hr : t.resets = s.resets) :
    absorbPair t = absorbPair s := by
  funext k n
  induction n generalizing k with
  | zero => rfl
  | succ n ih => funext p; simp only [absorbPair, ih, absorbLanes, blockWord_congr hi hr]

/-- The last block of an absorbing. -/
theorem absorbPair_succ (s : State) (n : Nat) : ∀ (k : Nat) (p : Lanes × Lanes),
    absorbPair s k (n + 1) p =
      (absorbLanes s (k + n) (absorbPair s k n p).1,
        permuteBuffer (xorRate (absorbPair s k n p).1 (blockWord s (k + n)))) := by
  induction n with
  | zero => intro k p; rfl
  | succ n ih =>
    intro k p
    have e : k + 1 + n = k + (n + 1) := by omega
    rw [absorbPair, ih, e]
    rfl

/-- The absorbing loop does not fault while whole blocks lie below `PLEN`, and changes `A`, `B` and `BLK` only. -/
theorem absorbLoop_ok : ∀ (n : Nat) (s : State), 168 * (s.blk.toNat + n) ≤ s.plen.toNat →
    ∃ blk : Word, blk.toNat = s.blk.toNat + n ∧
      absorbLoop n s =
        .ok { s with a := (absorbPair s s.blk.toNat n (s.a, s.b)).1
                     b := (absorbPair s s.blk.toNat n (s.a, s.b)).2
                     blk := blk } := by
  intro n
  induction n with
  | zero => intro s _; exact ⟨s.blk, rfl, rfl⟩
  | succ n ih =>
    intro s h
    have hlt := s.plen.isLt
    have hb : (s.blk + 1).toNat = s.blk.toNat + 1 := toNat_add_one (m := s.plen.toNat) (by omega) hlt
    have h1 : 168 * (s.blk.toNat + 1) ≤ s.plen.toNat := by omega
    simp only [absorbLoop, absorbRule_ok h1, bind, Except.bind]
    generalize hu : ({ s with a := _, b := _, blk := s.blk + 1 } : State) = u
    obtain ⟨blk, e1, e2⟩ := ih u (by subst hu; show 168 * ((s.blk + 1).toNat + n) ≤ s.plen.toNat; rw [hb]; omega)
    refine ⟨blk, ?_, ?_⟩
    · rw [e1]; subst hu; show (s.blk + 1).toNat + n = _; rw [hb]; omega
    · rw [e2, absorbPair_congr (s := s) (by subst hu; rfl) (by subst hu; rfl)]
      subst hu
      simp only [hb, absorbPair]

theorem toNat_add_21 {x : Word} {m : Nat} (h : x.toNat + 21 ≤ m) (hm : m < 2 ^ 64) :
    (x + 21).toNat = x.toNat + 21 := by
  have h21 : (21 : Word).toNat = 21 := rfl
  rw [BitVec.toNat_add, h21]; omega

/-- `OBUF` after `n` read-outs from word `o`, with `T_0 = l`. -/
def squeezeMem : Nat → Nat → Lanes → Memory → Memory
  | _, 0, _, m => m
  | o, n + 1, l, m => squeezeMem (o + 21) n (keccakF l) (m.storeBytes (8 * o) (rateBytesOf l))

theorem shakeSqueezed_succ' (l : Lanes) (n : Nat) : shakeSqueezed (keccakF l) n = shakeSqueezed l (n + 1) := by
  induction n with
  | zero => rfl
  | succ n ih => rw [shakeSqueezed, ih]; rfl

/-- `B` after `n` read-outs that start with `A = l` and `B = b`. -/
def squeezeBuffer (l b : Lanes) : Nat → Lanes
  | 0 => b
  | n + 1 => permuteBuffer (shakeSqueezed l n)

/-- The squeezing loop makes exactly the read-outs that are still needed, and does not fault while they fit. -/
theorem squeezeLoop_ok (nw : Nat) : ∀ (n fuel : Nat) (s : State),
    s.ocnt.toNat % 21 = 0 → n ≤ fuel → (s.ocnt.toNat + 21 * n ≤ s.params.obufCapW) →
    s.ocnt.toNat + 21 * n < 2 ^ 64 →
    (n = 0 → nw ≤ s.ocnt.toNat) → (0 < n → s.ocnt.toNat + 21 * n < nw + 21 ∧ nw ≤ s.ocnt.toNat + 21 * n) →
    ∃ ocnt : Word, ocnt.toNat = s.ocnt.toNat + 21 * n ∧
      squeezeLoop nw fuel s =
        .ok { s with a := shakeSqueezed s.a n
                     b := squeezeBuffer s.a s.b n
                     obuf := squeezeMem s.ocnt.toNat n s.a s.obuf
                     ocnt := ocnt } := by
  intro n
  induction n with
  | zero =>
    intro fuel s _ _ _ _ h0 _
    refine ⟨s.ocnt, rfl, ?_⟩
    have hle := h0 rfl
    cases fuel with
    | zero => rfl
    | succ f => rw [squeezeLoop, if_neg (by omega)]; rfl
  | succ n ih =>
    intro fuel s hm hf hc hw _ hn
    obtain ⟨hn1, hn2⟩ := hn (by omega)
    obtain ⟨f, rfl⟩ : ∃ f, fuel = f + 1 := ⟨fuel - 1, by omega⟩
    have ho : (s.ocnt + 21).toNat = s.ocnt.toNat + 21 := by
      have h21 : (21 : Word).toNat = 21 := rfl
      rw [BitVec.toNat_add, h21]; omega
    rw [squeezeLoop, if_pos (by omega), squeezeRule_ok (by omega)]
    simp only [bind, Except.bind]
    generalize hu : ({ s with a := _, b := _, obuf := _, ocnt := s.ocnt + 21 } : State) = u
    have hou : u.ocnt.toNat = s.ocnt.toNat + 21 := by subst hu; exact ho
    have hpu : u.params = s.params := by subst hu; rfl
    obtain ⟨oc, e1, e2⟩ := ih f u (by omega) (by omega) (by rw [hou, hpu]; omega) (by omega)
      (by intro h; subst h; omega) (by intro h; omega)
    refine ⟨oc, by omega, ?_⟩
    rw [e2, hou]
    subst hu
    simp only [shakeSqueezed_succ', squeezeMem]
    cases n with
    | zero => rfl
    | succ m => simp only [squeezeBuffer, shakeSqueezed_succ']

end Sys2Proof.Machine
end

