-- ==== Sys2Proof/Laws/Composite.lean ====
section
/-! SUPPORT. The rule of `HASH` as a whole, and its parts in terms of the pure function of R186. -/

namespace Sys2Proof.Machine

/-! ### Lengths -/

theorem wordsNeeded_eq (olen : Nat) : wordsNeeded olen = (olen + 7) / 8 := rfl

theorem readoutsNeeded_eq (olen : Nat) : readoutsNeeded olen = ((olen + 7) / 8 + 20) / 21 := rfl

/-! ### The padded message -/

theorem length_shakePad (msg : List Byte) : (shakePad msg).length = paddedLen msg.length := by
  obtain ⟨h1, -, -⟩ := paddedLen_bounds msg.length
  simp only [shakePad, shakePadZero, List.length_modify, List.length_append, List.length_replicate,
    List.length_cons, List.length_nil]
  unfold paddedLen at *
  omega

/-- Byte `k` of the padded message. -/
theorem getElem?_shakePad (msg : List Byte) (k : Nat) (hk : k < paddedLen msg.length) :
    (shakePad msg)[k]? =
      some (if k = paddedLen msg.length - 1 then
          (if msg.length = paddedLen msg.length - 1 then dsuf ^^^ finalBit else finalBit)
        else if k = msg.length then dsuf
        else if msg.length < k then 0
        else msg[k]?.getD 0) := by
  obtain ⟨h1, -, -⟩ := paddedLen_bounds msg.length
  have hz : ∀ j, j < paddedLen msg.length → (shakePadZero msg)[j]? =
      some (if j = msg.length then dsuf else if msg.length < j then 0 else msg[j]?.getD 0) := by
    intro j hj
    have hj' : j < 168 * (msg.length / 168 + 1) := hj
    simp only [shakePadZero, List.append_assoc]
    rcases Nat.lt_trichotomy j msg.length with h | h | h
    · rw [List.getElem?_append_left h, List.getElem?_eq_getElem h]
      simp [show j ≠ msg.length by omega, show ¬ msg.length < j by omega]
    · subst h; simp
    · rw [List.getElem?_append_right (by omega), List.getElem?_append_right (by simp; omega)]
      simp only [List.length_cons, List.length_nil]
      rw [List.getElem?_replicate, if_pos (by omega)]
      simp [show j ≠ msg.length by omega, h]
  have hlen : (shakePadZero msg).length = paddedLen msg.length := by
    have := length_shakePad msg
    simpa [shakePad] using this
  rw [shakePad, hlen, List.getElem?_modify, hz k hk]
  by_cases hl : paddedLen msg.length - 1 = k
  · subst hl
    by_cases hm : msg.length = paddedLen msg.length - 1
    · rw [← hm]; simp
    · have : msg.length < paddedLen msg.length - 1 := by omega
      simp [hm, show ¬ paddedLen msg.length - 1 = msg.length by omega, this]
  · simp [hl, show ¬ k = paddedLen msg.length - 1 by omega]

/-- The message a state holds: `IBUF[0 .. ILEN-1]`. -/
def message (s : State) : List Byte := (List.range s.ilen.toNat).map (ibufByte s)

@[simp] theorem length_message (s : State) : (message s).length = s.ilen.toNat := by simp [message]

/-- The padding writes leave in `IBUF` the padded message of R186. -/
theorem ibufByte_padBytes_message (s : State) (k : Nat) (hk : k < paddedLen s.ilen.toNat) :
    (shakePad (message s))[k]? = some (ibufByte (padBytes s s.ilen.toNat) k) := by
  rw [getElem?_shakePad _ _ (by simpa using hk), ibufByte_padBytes, length_message]
  congr 1
  split
  · rfl
  · split
    · rfl
    · by_cases h : s.ilen.toNat < k
      · simp [h, hk]
      · have : k < s.ilen.toNat := by omega
        simp [h, message, List.getElem?_map, List.getElem?_range this]

/-! ### Absorbing -/

/-- A block word read from a buffer that holds a byte list is the word of the list. -/
theorem blockWord_eq_shakeWord {s : State} {p : List Byte} (h : ∀ a, a < p.length → p[a]? = some (ibufByte s a))
    {k j : Nat} (hk : 168 * (k + 1) ≤ p.length) (hj : j < 21) : blockWord s k j = shakeWord p k j := by
  have key : ((List.range 8).map fun i => ibufByte s (168 * k + 8 * j + i)) = (p.drop (168 * k + 8 * j)).take 8 := by
    apply List.ext_getElem?
    intro i
    by_cases hi : i < 8
    · rw [List.getElem?_take_of_lt hi, List.getElem?_drop, h (168 * k + 8 * j + i) (by omega),
        List.getElem?_map, List.getElem?_range hi, Option.map_some]
    · rw [List.getElem?_eq_none (by rw [List.length_map, List.length_range]; omega),
        List.getElem?_eq_none (by rw [List.length_take]; omega)]
  rw [blockWord, ibufWord, shakeWord, key]

/-- The absorbing loop on lanes is `S_(k+1) = Keccak_f(S_k ^ block(P, k))` (R186). -/
theorem absorbPair_fst {s : State} {p : List Byte} (h : ∀ a, a < p.length → p[a]? = some (ibufByte s a)) :
    ∀ (n k : Nat) (b : Lanes), 168 * (k + n) ≤ p.length →
      (absorbPair s k n (shakeAbsorbed p k, b)).1 = shakeAbsorbed p (k + n) := by
  intro n
  induction n with
  | zero => intro k b _; rfl
  | succ n ih =>
    intro k b hn
    have e : absorbLanes s k (shakeAbsorbed p k) = shakeAbsorbed p (k + 1) := by
      rw [absorbLanes, shakeAbsorbed]
      exact congrArg keccakF (xorRate_congr fun j hj => blockWord_eq_shakeWord h (by omega) hj)
    have hk : k + 1 + n = k + (n + 1) := by omega
    rw [absorbPair, e, ih (k + 1) _ (by omega), hk]

/-- Two buffers that agree below the blocks absorbed give the same `A` and `B`. -/
theorem absorbPair_bytes {s t : State} {m : Nat} (h : ∀ a, a < m → ibufByte s a = ibufByte t a) :
    ∀ (n k : Nat) (q : Lanes × Lanes), 168 * (k + n) ≤ m → absorbPair s k n q = absorbPair t k n q := by
  intro n
  induction n with
  | zero => intro k q _; rfl
  | succ n ih =>
    intro k q hn
    have e : ∀ l, xorRate l (blockWord s k) = xorRate l (blockWord t k) := fun l =>
      xorRate_congr fun j hj => by
        simp only [blockWord, ibufWord]
        congr 1
        refine List.map_congr_left fun i hi => h _ ?_
        have := List.mem_range.1 hi
        omega
    simp only [absorbPair, absorbLanes, e]
    exact ih (k + 1) _ (by omega)

/-! ### Squeezing -/

theorem shakeStream_succ (l : Lanes) (n : Nat) :
    shakeStream l (n + 1) = rateBytesOf l ++ shakeStream (keccakF l) n := by
  simp only [shakeStream, List.range_succ_eq_map, List.flatMap_cons, List.flatMap_map, shakeSqueezed_succ']
  rfl

@[simp] theorem length_shakeStream (l : Lanes) (n : Nat) : (shakeStream l n).length = 168 * n := by
  induction n generalizing l with
  | zero => rfl
  | succ n ih => rw [shakeStream_succ, List.length_append, ih, length_rateBytesOf]; omega

/-- The read-outs are one write of the output stream (R186). -/
theorem squeezeMem_eq (n : Nat) : ∀ (o : Nat) (l : Lanes) (m : Memory),
    squeezeMem o n l m = m.storeBytes (8 * o) (shakeStream l n) := by
  induction n with
  | zero => intro o l m; rfl
  | succ n ih =>
    intro o l m
    rw [squeezeMem, ih, shakeStream_succ, Memory.storeBytes_append, length_rateBytesOf]
    congr 1

/-- Fewer blocks of the stream are a prefix of more. -/
theorem shakeStream_prefix (l : Lanes) {m n : Nat} (h : m ≤ n) : shakeStream l m <+: shakeStream l n := by
  induction m generalizing n l with
  | zero => exact List.nil_prefix
  | succ m ih =>
    obtain ⟨k, rfl⟩ : ∃ k, n = k + 1 := ⟨n - 1, by omega⟩
    rw [shakeStream_succ, shakeStream_succ]
    exact (List.prefix_append_right_inj _).2 (ih _ (by omega))

/-- The first `len` bytes of enough blocks of the stream. -/
theorem shake128_eq_take (msg : List Byte) {len n : Nat} (h : ((len + 7) / 8 + 20) / 21 ≤ n) :
    shake128 msg len = (shakeStream (shakeStart msg) n).take len := by
  obtain ⟨r, hr⟩ := shakeStream_prefix (shakeStart msg) h
  rw [shake128, ← hr, List.take_append_of_le_length (by rw [length_shakeStream]; omega)]

theorem length_shake128_eq (msg : List Byte) (len : Nat) : (shake128 msg len).length = len := by
  rw [shake128_eq_take msg (Nat.le_refl _), List.length_take, length_shakeStream]; omega

/-! ### `HASH` -/

theorem hashRule_error {s : State}
    (h : s.params.ibufCap ≤ s.ilen.toNat ∨ s.params.obufCapW < 21 * readoutsNeeded s.olen.toNat) :
    hashRule s = .error .capacity := by
  rw [hashRule]
  split
  · rfl
  · rw [if_pos (by omega)]

/-- `A` and `B` when the absorbing of the message is complete. -/
def hashAbsorbed (s : State) : Lanes × Lanes :=
  absorbPair (padBytes s s.ilen.toNat) 0 (paddedLen s.ilen.toNat / 168) (zeroLanes, zeroLanes)

/-- The rule of `HASH` as a whole, when both checks pass (R184). -/
theorem hashRule_ok {s : State} (hp : s.params.wf) (hi : s.ilen.toNat < s.params.ibufCap)
    (ho : 21 * readoutsNeeded s.olen.toNat ≤ s.params.obufCapW) :
    ∃ blk ocnt : Word, blk.toNat = paddedLen s.ilen.toNat / 168 ∧
      ocnt.toNat = 21 * readoutsNeeded s.olen.toNat ∧
      hashRule s = .ok { s with
        a := shakeSqueezed (hashAbsorbed s).1 (readoutsNeeded s.olen.toNat)
        b := squeezeBuffer (hashAbsorbed s).1 (hashAbsorbed s).2 (readoutsNeeded s.olen.toNat)
        plen := BitVec.ofNat 64 (paddedLen s.ilen.toNat), blk := blk, ocnt := ocnt
        ibuf := (padBytes s s.ilen.toNat).ibuf
        obuf := s.obuf.storeBytes 0 (shakeStream (hashAbsorbed s).1 (readoutsNeeded s.olen.toNat))
        status := { s.status with done := true } } := by
  obtain ⟨-, hc, hb, -, -, hw⟩ := hp
  have hle := paddedLen_le hc hi
  obtain ⟨-, -, hm⟩ := paddedLen_bounds s.ilen.toNat
  have hpl : (BitVec.ofNat 64 (paddedLen s.ilen.toNat)).toNat = paddedLen s.ilen.toNat := by
    rw [BitVec.toNat_ofNat, Nat.mod_eq_of_lt (by omega)]
  obtain ⟨u, hu⟩ : ∃ u : State, u = { initState s with
      ibuf := (padBytes s s.ilen.toNat).ibuf
      plen := BitVec.ofNat 64 (paddedLen s.ilen.toNat) } := ⟨_, rfl⟩
  have hpad : padRule (initState s) = .ok u := by rw [hu]; exact padRule_ok (s := initState s) hi
  have hub : u.blk.toNat = 0 := by subst hu; rfl
  have hup : u.plen.toNat = paddedLen s.ilen.toNat := by subst hu; exact hpl
  obtain ⟨blk, e1, e2⟩ := absorbLoop_ok (paddedLen s.ilen.toNat / 168) u (by rw [hub, hup]; omega)
  have ha : absorbPair u = absorbPair (padBytes s s.ilen.toNat) :=
    absorbPair_congr (by subst hu; rfl) (by subst hu; rfl)
  have hab : (u.a, u.b) = (zeroLanes, zeroLanes) := by subst hu; rfl
  rw [hub, ha, hab] at e2
  obtain ⟨v, hv⟩ : ∃ v : State, v = { u with
      a := (hashAbsorbed s).1, b := (hashAbsorbed s).2, blk := blk } := ⟨_, rfl⟩
  have e2' : absorbLoop (u.plen.toNat / 168) u = .ok v := by rw [hup, hv]; exact e2
  have hvo : v.ocnt.toNat = 0 := by subst hv hu; rfl
  have hvp : v.params = s.params := by subst hv hu; rfl
  have hnw := wordsNeeded_eq s.olen.toNat
  have hns := readoutsNeeded_eq s.olen.toNat
  have hol := s.olen.isLt
  obtain ⟨oc, e3, e4⟩ := squeezeLoop_ok (wordsNeeded s.olen.toNat) (readoutsNeeded s.olen.toNat)
    (wordsNeeded s.olen.toNat) v (by omega) (by omega) (by rw [hvo, hvp]; omega) (by omega)
    (by omega) (by omega)
  refine ⟨blk, oc, by omega, by omega, ?_⟩
  rw [hashRule, if_neg (by omega), if_neg (by omega), hpad]
  simp only [bind, Except.bind, pure, Except.pure, e2', e4, hvo, squeezeMem_eq]
  subst hv hu
  rfl

/-- The message's bytes and the message of the initialised state are the same; `T_0` is what absorbing leaves. -/
theorem hashAbsorbed_fst (s : State) : (hashAbsorbed s).1 = shakeStart (message s) := by
  have hlen : (shakePad (message s)).length = paddedLen s.ilen.toNat := by rw [length_shakePad, length_message]
  rw [hashAbsorbed, shakeStart, hlen]
  have h := absorbPair_fst (s := padBytes s s.ilen.toNat) (p := shakePad (message s))
    (fun a ha => ibufByte_padBytes_message s a (by omega)) (paddedLen s.ilen.toNat / 168) 0 zeroLanes (by omega)
  simpa [shakeAbsorbed] using h

end Sys2Proof.Machine
end

