-- ==== Sys2Proof/Laws/PerInstr.lean ====
section
/-! SUPPORT. A law of every instruction as syntax: where its opcode and its operand stand in the value written to
`CMD`. -/

namespace Sys2Proof.Laws.Encoding

/-- The fields of an encoded command (R100, R101): bits 63:16 are 0, the opcode is in bits 15:8 and the operand byte
in bits 7:0. -/
def Statement (i : Instr) : Prop :=
  highField (encodeCmd i) = 0 ∧ opField (encodeCmd i) = opcode i ∧ argField (encodeCmd i) = operandByte i

theorem theta : Statement .theta := by unfold Statement; decide
theorem rhopi : Statement .rhopi := by unfold Statement; decide
theorem chi : Statement .chi := by unfold Statement; decide
theorem iota (r : BitVec 5) : Statement (.iota r) := by unfold Statement; revert r; decide
theorem round (r : BitVec 5) : Statement (.round r) := by unfold Statement; revert r; decide
theorem permute : Statement .permute := by unfold Statement; decide
theorem init : Statement .init := by unfold Statement; decide
theorem pad : Statement .pad := by unfold Statement; decide
theorem xorb : Statement .xorb := by unfold Statement; decide
theorem extb : Statement .extb := by unfold Statement; decide
theorem absorb : Statement .absorb := by unfold Statement; decide
theorem squeeze : Statement .squeeze := by unfold Statement; decide
theorem hash : Statement .hash := by unfold Statement; decide

end Sys2Proof.Laws.Encoding
end

