-- ==== Sys2Proof/Laws/Decode.lean ====
section
/-! SUPPORT. The fields of a command value as numbers, and what each branch of the decoder accepts. -/

namespace Sys2Proof

theorem highField_toNat (v : Word) : (highField v).toNat = v.toNat / 2 ^ 16 := by
  rw [highField, BitVec.extractLsb'_toNat, Nat.shiftRight_eq_div_pow]
  have := v.isLt
  omega

theorem opField_toNat (v : Word) : (opField v).toNat = v.toNat / 2 ^ 8 % 2 ^ 8 := by
  rw [opField, BitVec.extractLsb'_toNat, Nat.shiftRight_eq_div_pow]

theorem argField_toNat (v : Word) : (argField v).toNat = v.toNat % 2 ^ 8 := by
  rw [argField, BitVec.extractLsb'_toNat, Nat.shiftRight_zero]

theorem reservedField_toNat (v : Word) : (reservedField v).toNat = v.toNat / 2 ^ 5 % 2 ^ 3 := by
  rw [reservedField, BitVec.extractLsb'_toNat, Nat.shiftRight_eq_div_pow]

theorem roundField_toNat (v : Word) : (roundField v).toNat = v.toNat % 2 ^ 5 := by
  rw [roundField, BitVec.extractLsb'_toNat, Nat.shiftRight_zero]

/-- A value with no bit above 15 is its opcode and its operand byte. -/
theorem toNat_of_highField {v : Word} (h : highField v = 0) :
    v.toNat = (opField v).toNat * 256 + (argField v).toNat := by
  have h1 : (highField v).toNat = 0 := by rw [h]; rfl
  rw [highField_toNat] at h1
  rw [opField_toNat, argField_toNat]
  omega

/-- An operand byte with bits 7:5 zero is its round field. -/
theorem argField_of_reserved {v : Word} (h : reservedField v = 0) : (argField v).toNat = (roundField v).toNat := by
  have h1 : (reservedField v).toNat = 0 := by rw [h]; rfl
  rw [reservedField_toNat] at h1
  rw [argField_toNat, roundField_toNat]
  omega

/-- The per-instruction law for every instruction. -/
theorem encoding_fields (i : Instr) : Laws.Encoding.Statement i :=
  match i with
  | .theta => Laws.Encoding.theta
  | .rhopi => Laws.Encoding.rhopi
  | .chi => Laws.Encoding.chi
  | .iota r => Laws.Encoding.iota r
  | .round r => Laws.Encoding.round r
  | .permute => Laws.Encoding.permute
  | .init => Laws.Encoding.init
  | .pad => Laws.Encoding.pad
  | .xorb => Laws.Encoding.xorb
  | .extb => Laws.Encoding.extb
  | .absorb => Laws.Encoding.absorb
  | .squeeze => Laws.Encoding.squeeze
  | .hash => Laws.Encoding.hash

theorem encodeCmd_toNat (i : Instr) : (encodeCmd i).toNat = (opcode i).toNat * 256 + (operandByte i).toNat := by
  obtain ⟨h1, h2, h3⟩ := encoding_fields i
  rw [toNat_of_highField h1, h2, h3]

theorem decodeN_eq_ok {i j : Instr} {v : Word} : decodeN i v = .ok j ↔ argField v = 0 ∧ i = j := by
  unfold decodeN
  split
  · rename_i h; exact ⟨fun e => ⟨h, Except.ok.inj e⟩, fun e => by rw [e.2]⟩
  · rename_i h; exact ⟨fun e => (nomatch e), fun e => absurd e.1 h⟩

theorem decodeR_eq_ok {mk : BitVec 5 → Instr} {j : Instr} {v : Word} :
    decodeR mk v = .ok j ↔ reservedField v = 0 ∧ roundIndexLegal (roundField v) = true ∧ mk (roundField v) = j := by
  unfold decodeR
  split
  · rename_i h; exact ⟨fun e => (nomatch e), fun e => absurd e.1 h⟩
  · rename_i h
    have h' : reservedField v = 0 := by simpa using h
    split
    · rename_i hr; exact ⟨fun e => ⟨h', hr, Except.ok.inj e⟩, fun e => by rw [e.2.2]⟩
    · rename_i hr; exact ⟨fun e => (nomatch e), fun e => absurd e.2.1 hr⟩

/-- What a value that decodes looks like, field by field. -/
theorem decodeCmd_ok_fields {v : Word} {i : Instr} (h : decodeCmd v = .ok i) :
    highField v = 0 ∧ opField v = opcode i ∧ argField v = operandByte i ∧ WellFormed i = true := by
  have hN : ∀ {j : Instr}, operandByte j = 0 → WellFormed j = true → opField v = opcode j →
      decodeN j v = .ok i → opField v = opcode i ∧ argField v = operandByte i ∧ WellFormed i = true := by
    intro j h0 hw ho hd
    obtain ⟨ha, rfl⟩ := decodeN_eq_ok.1 hd
    exact ⟨ho, ha.trans h0.symm, hw⟩
  have hR : ∀ {mk : BitVec 5 → Instr}, (∀ r, operandByte (mk r) = r.setWidth 8) →
      (∀ r, WellFormed (mk r) = roundIndexLegal r) → (∀ r, opField v = opcode (mk r)) →
      decodeR mk v = .ok i → opField v = opcode i ∧ argField v = operandByte i ∧ WellFormed i = true := by
    intro mk h0 hw ho hd
    obtain ⟨hres, hl, rfl⟩ := decodeR_eq_ok.1 hd
    refine ⟨ho _, BitVec.eq_of_toNat_eq ?_, (hw _).trans hl⟩
    rw [argField_of_reserved hres, h0, BitVec.toNat_setWidth, Nat.mod_eq_of_lt]
    have := (roundField v).isLt
    omega
  by_cases hh : highField v = 0
  swap
  · rw [decodeCmd, if_pos hh] at h; exact nomatch h
  refine ⟨hh, ?_⟩
  rw [decodeCmd, if_neg (by simpa using hh)] at h
  by_cases ho : opField v = 0x10
  · rw [if_pos ho] at h; exact hN (j := .theta) rfl rfl ho h
  rw [if_neg ho] at h; clear ho
  by_cases ho : opField v = 0x11
  · rw [if_pos ho] at h; exact hN (j := .rhopi) rfl rfl ho h
  rw [if_neg ho] at h; clear ho
  by_cases ho : opField v = 0x12
  · rw [if_pos ho] at h; exact hN (j := .chi) rfl rfl ho h
  rw [if_neg ho] at h; clear ho
  by_cases ho : opField v = 0x13
  · rw [if_pos ho] at h; exact hR (mk := .iota) (fun _ => rfl) (fun _ => rfl) (fun _ => ho) h
  rw [if_neg ho] at h; clear ho
  by_cases ho : opField v = 0x18
  · rw [if_pos ho] at h; exact hR (mk := .round) (fun _ => rfl) (fun _ => rfl) (fun _ => ho) h
  rw [if_neg ho] at h; clear ho
  by_cases ho : opField v = 0x19
  · rw [if_pos ho] at h; exact hN (j := .permute) rfl rfl ho h
  rw [if_neg ho] at h; clear ho
  by_cases ho : opField v = 0x20
  · rw [if_pos ho] at h; exact hN (j := .init) rfl rfl ho h
  rw [if_neg ho] at h; clear ho
  by_cases ho : opField v = 0x21
  · rw [if_pos ho] at h; exact hN (j := .pad) rfl rfl ho h
  rw [if_neg ho] at h; clear ho
  by_cases ho : opField v = 0x22
  · rw [if_pos ho] at h; exact hN (j := .xorb) rfl rfl ho h
  rw [if_neg ho] at h; clear ho
  by_cases ho : opField v = 0x23
  · rw [if_pos ho] at h; exact hN (j := .extb) rfl rfl ho h
  rw [if_neg ho] at h; clear ho
  by_cases ho : opField v = 0x28
  · rw [if_pos ho] at h; exact hN (j := .absorb) rfl rfl ho h
  rw [if_neg ho] at h; clear ho
  by_cases ho : opField v = 0x29
  · rw [if_pos ho] at h; exact hN (j := .squeeze) rfl rfl ho h
  rw [if_neg ho] at h; clear ho
  by_cases ho : opField v = 0x2F
  · rw [if_pos ho] at h; exact hN (j := .hash) rfl rfl ho h
  rw [if_neg ho] at h; clear ho
  exact nomatch h

end Sys2Proof
end

