-- ==== Sys2Proof/Laws/Ops.lean ====
section
/-! SUPPORT. What the shared operations can do: `perform` (R110), the host's moves, one step. -/

namespace Sys2Proof.Machine

/-- A halted engine ignores a command (R207). -/
theorem perform_halted {rule : State → Except FaultCode State} {s : State} {c : FaultCode}
    (h : s.status.err = some c) : perform rule s = .next s := by
  simp [perform, halted, h]

/-- The state a rule runs on: the command has been accepted (R110). -/
def accepted (s : State) : State := { s with status := ⟨true, false, none⟩ }

/-- On an engine that is not halted, `perform` is the rule on the accepted state, with the end of the command or the
fault entry after it. -/
theorem perform_ready {rule : State → Except FaultCode State} {s : State} (h : s.status.err = none) :
    perform rule s =
      match rule (accepted s) with
      | .ok t => .next { t with status := finishStatus t.status }
      | .error c => .next { s with status := ⟨false, false, some c⟩ } := by
  have e : ({ s with status := acceptStatus s.status } : State) = accepted s := by
    simp [accepted, acceptStatus, h]
  rw [perform, if_neg (by simp [halted, h]), e]
  cases rule (accepted s) <;> rfl

/-- Whatever the rule, `perform` gives a next state: a command never stops the machine. -/
theorem perform_next (rule : State → Except FaultCode State) (s : State) : ∃ t, perform rule s = .next t := by
  unfold perform
  split
  · exact ⟨_, rfl⟩
  · split <;> exact ⟨_, rfl⟩

/-- Inversion: what the next state of `perform` is. -/
theorem perform_cases {rule : State → Except FaultCode State} {s t : State} (h : perform rule s = .next t) :
    (∃ c, s.status.err = some c ∧ t = s) ∨
    (s.status.err = none ∧
      ((∃ u, rule (accepted s) = .ok u ∧ t = { u with status := finishStatus u.status }) ∨
       ∃ c, rule (accepted s) = .error c ∧ t = { s with status := ⟨false, false, some c⟩ })) := by
  cases he : s.status.err with
  | some c => exact .inl ⟨c, rfl, by simpa [perform_halted he] using h.symm⟩
  | none =>
    rw [perform_ready he] at h
    refine .inr ⟨rfl, ?_⟩
    cases hr : rule (accepted s) with
    | ok u => rw [hr] at h; exact .inl ⟨u, rfl, by simpa using h.symm⟩
    | error c => rw [hr] at h; exact .inr ⟨c, rfl, by simpa using h.symm⟩

/-- The rule of each command: `exec` is `perform` of it. -/
def ruleOf (i : Instr) : State → Except FaultCode State :=
  match i with
  | .theta => fun t => .ok (thetaState t)
  | .rhopi => fun t => .ok (rhoPiState t)
  | .chi => fun t => .ok (chiState t)
  | .iota r => withRound r iotaState
  | .round r => withRound r roundState
  | .permute => fun t => .ok (permuteState t)
  | .init => fun t => .ok (initState t)
  | .pad => padRule
  | .xorb => xorbRule
  | .extb => extbRule
  | .absorb => absorbRule
  | .squeeze => squeezeRule
  | .hash => hashRule

theorem exec_eq_perform (i : Instr) (s : State) : exec i s = perform (ruleOf i) s := by
  cases i <;> rfl

/-- A move issued now is performed on the state with nothing returned yet. -/
theorem issue_eq_hostMove (m : HostMove) (s : State) : issue m s = hostMove m { s with reply := none } := rfl

theorem step_cons {s : State} {m : HostMove} {rest : List HostMove} (h : s.inbox = m :: rest) :
    step s = hostMove m { s with inbox := rest, reply := none } := by
  simp [step, h]

theorem step_nil {s : State} (h : s.inbox = []) : step s = .next s := by
  simp [step, h]

/-- A step is idle or performs the oldest pending move. -/
theorem step_cases {s t : State} (h : step s = .next t) :
    (s.inbox = [] ∧ t = s) ∨
    ∃ m rest, s.inbox = m :: rest ∧ hostMove m { s with inbox := rest, reply := none } = .next t := by
  cases hi : s.inbox with
  | nil => rw [step_nil hi] at h; exact .inl ⟨rfl, by simpa using h.symm⟩
  | cons m rest => rw [step_cons hi] at h; exact .inr ⟨m, rest, rfl, h⟩

/-- What a move can do to an engine on which it has a meaning: everything `hostMove` answers a next state for. -/
theorem hostMove_cases {m : HostMove} {s t : State} (h : hostMove m s = .next t) :
    (∃ n v, m = .writeReg n v ∧
      ((halted s = true ∧ t = s) ∨
       (halted s = false ∧ n = 0 ∧ ∃ i, decodeCmd v = .ok i ∧ exec i s = .next t) ∨
       (halted s = false ∧ n = 0 ∧ (∀ i, decodeCmd v ≠ .ok i) ∧ t = raiseFault .illegalCmd s) ∨
       (halted s = false ∧ n ≠ 0 ∧ t = writeReg s n v))) ∨
    (∃ n, m = .readReg n ∧ t = { s with reply := some (.word (readReg s n)) }) ∨
    (∃ a b, m = .writeIbuf a b ∧ t = hostWriteIbuf a b s) ∨
    (∃ a, m = .readIbuf a ∧
      t = { (hostReadIbuf a s).2 with reply := some (.byte (hostReadIbuf a s).1) }) ∨
    (∃ a, m = .readObuf a ∧
      t = { (hostReadObuf a s).2 with reply := some (.byte (hostReadObuf a s).1) }) ∨
    (m = .reset ∧ t = applyReset s) := by
  unfold hostMove at h
  split at h
  · simp at h
  · cases m with
    | writeReg n v =>
      refine .inl ⟨n, v, rfl, ?_⟩
      simp only [hostWriteReg] at h
      split at h
      · rename_i hh; exact .inl ⟨hh, by simpa using h.symm⟩
      · rename_i hh
        have hf : halted s = false := by simpa using hh
        split at h
        · rename_i hn
          split at h
          · rename_i i hd; exact .inr (.inl ⟨hf, hn, i, hd, h⟩)
          · rename_i e hd
            exact .inr (.inr (.inl ⟨hf, hn, fun i => by simp [hd], by simpa using h.symm⟩))
        · rename_i hn; exact .inr (.inr (.inr ⟨hf, hn, by simpa using h.symm⟩))
    | readReg n => exact .inr (.inl ⟨n, rfl, by simpa using h.symm⟩)
    | writeIbuf a b => exact .inr (.inr (.inl ⟨a, b, rfl, by simpa using h.symm⟩))
    | readIbuf a => exact .inr (.inr (.inr (.inl ⟨a, rfl, by simpa using h.symm⟩)))
    | readObuf a => exact .inr (.inr (.inr (.inr (.inl ⟨a, rfl, by simpa using h.symm⟩))))
    | reset => exact .inr (.inr (.inr (.inr (.inr ⟨rfl, by simpa using h.symm⟩))))

/-- On an engine that is not busy, a move is performed without the refusal of R77. -/
theorem hostMove_idle {s : State} (h : s.status.busy = false) (m : HostMove) :
    hostMove m s =
      match m with
      | .writeReg n v => hostWriteReg n v s
      | .readReg n => .next { s with reply := some (.word (readReg s n)) }
      | .writeIbuf a b => .next (hostWriteIbuf a b s)
      | .readIbuf a => .next { (hostReadIbuf a s).2 with reply := some (.byte (hostReadIbuf a s).1) }
      | .readObuf a => .next { (hostReadObuf a s).2 with reply := some (.byte (hostReadObuf a s).1) }
      | .reset => .next (applyReset s) := by
  cases m <;> simp [hostMove, h]

end Sys2Proof.Machine
end

