-- ==== Sys2Proof/Laws/Exec.lean ====
section
/-! SUPPORT. What `exec` answers for each command, as one equation per case: the lemmas that later proofs cite
instead of unfolding a command. -/

namespace Sys2Proof.Machine

theorem exec_halted {s : State} {c : FaultCode} (h : s.status.err = some c) (i : Instr) : exec i s = .next s := by
  rw [exec_eq_perform, perform_halted h]

theorem exec_of_rule_ok {i : Instr} {s u : State} (he : s.status.err = none)
    (h : ruleOf i (accepted s) = .ok u) : exec i s = .next { u with status := finishStatus u.status } := by
  rw [exec_eq_perform, perform_ready he, h]

theorem exec_of_rule_error {i : Instr} {s : State} {c : FaultCode} (he : s.status.err = none)
    (h : ruleOf i (accepted s) = .error c) : exec i s = .next { s with status := ⟨false, false, some c⟩ } := by
  rw [exec_eq_perform, perform_ready he, h]

theorem exec_theta {s : State} (he : s.status.err = none) :
    exec .theta s = .next { s with a := thetaLanes s.a, status := idleStatus } :=
  exec_of_rule_ok (i := .theta) (u := thetaState (accepted s)) he rfl

theorem exec_rhopi {s : State} (he : s.status.err = none) :
    exec .rhopi s = .next { s with b := rhoPiLanes s.a, status := idleStatus } :=
  exec_of_rule_ok (i := .rhopi) (u := rhoPiState (accepted s)) he rfl

theorem exec_chi {s : State} (he : s.status.err = none) :
    exec .chi s = .next { s with a := chiLanes s.b, status := idleStatus } :=
  exec_of_rule_ok (i := .chi) (u := chiState (accepted s)) he rfl

theorem exec_iota {s : State} (he : s.status.err = none) {r : BitVec 5} (hr : r.toNat < 24) :
    exec (.iota r) s = .next { s with a := iotaLanes ⟨r.toNat, hr⟩ s.a, status := idleStatus } :=
  exec_of_rule_ok (i := .iota r) (u := iotaState ⟨r.toNat, hr⟩ (accepted s)) he (withRound_legal hr _ _)

theorem exec_round {s : State} (he : s.status.err = none) {r : BitVec 5} (hr : r.toNat < 24) :
    exec (.round r) s =
      .next { s with a := roundLanes ⟨r.toNat, hr⟩ s.a, b := rhoPiLanes (thetaLanes s.a), status := idleStatus } :=
  exec_of_rule_ok (i := .round r) (u := roundState ⟨r.toNat, hr⟩ (accepted s)) he (withRound_legal hr _ _)

theorem exec_permute {s : State} (he : s.status.err = none) :
    exec .permute s = .next { s with a := keccakF s.a, b := permuteBuffer s.a, status := idleStatus } := by
  have h : ruleOf .permute (accepted s) = .ok (permuteState (accepted s)) := rfl
  rw [exec_of_rule_ok he h, permuteState_eq]
  rfl

theorem exec_init {s : State} (he : s.status.err = none) :
    exec .init s =
      .next { s with a := zeroLanes, b := zeroLanes, plen := 0, blk := 0, ocnt := 0, status := idleStatus } :=
  exec_of_rule_ok (i := .init) (u := initState (accepted s)) he rfl

theorem exec_pad_fault {s : State} (he : s.status.err = none) (h : s.params.ibufCap ≤ s.ilen.toNat) :
    exec .pad s = .next { s with status := ⟨false, false, some .capacity⟩ } :=
  exec_of_rule_error (i := .pad) he (padRule_error (s := accepted s) h)

theorem exec_pad {s : State} (he : s.status.err = none) (h : s.ilen.toNat < s.params.ibufCap) :
    exec .pad s =
      .next { s with ibuf := (padBytes s s.ilen.toNat).ibuf
                     plen := BitVec.ofNat 64 (paddedLen s.ilen.toNat), status := idleStatus } := by
  rw [exec_of_rule_ok (i := .pad) he (padRule_ok (s := accepted s) h)]
  rfl

theorem exec_xorb_fault {s : State} (he : s.status.err = none) (h : s.plen.toNat < 168 * (s.blk.toNat + 1)) :
    exec .xorb s = .next { s with status := ⟨false, false, some .index⟩ } :=
  exec_of_rule_error (i := .xorb) he (xorbRule_error (s := accepted s) h)

theorem exec_xorb {s : State} (he : s.status.err = none) (h : 168 * (s.blk.toNat + 1) ≤ s.plen.toNat) :
    exec .xorb s =
      .next { s with a := xorRate s.a (blockWord s s.blk.toNat), blk := s.blk + 1, status := idleStatus } := by
  rw [exec_of_rule_ok (i := .xorb) he (xorbRule_ok (s := accepted s) h)]
  rfl

theorem exec_extb_fault {s : State} (he : s.status.err = none) (h : s.params.obufCapW < s.ocnt.toNat + 21) :
    exec .extb s = .next { s with status := ⟨false, false, some .capacity⟩ } :=
  exec_of_rule_error (i := .extb) he (extbRule_error (s := accepted s) h)

theorem exec_extb {s : State} (he : s.status.err = none) (h : s.ocnt.toNat + 21 ≤ s.params.obufCapW) :
    exec .extb s =
      .next { s with obuf := s.obuf.storeBytes (8 * s.ocnt.toNat) (rateBytesOf s.a), ocnt := s.ocnt + 21
                     status := idleStatus } := by
  obtain ⟨u, hu⟩ : ∃ u : State, u = { accepted s with
      obuf := s.obuf.storeBytes (8 * s.ocnt.toNat) (rateBytesOf s.a), ocnt := s.ocnt + 21 } := ⟨_, rfl⟩
  have hr : ruleOf .extb (accepted s) = .ok u := by rw [hu]; exact extbRule_ok (s := accepted s) h
  rw [exec_of_rule_ok he hr, hu]
  simp only [accepted, finishStatus, idleStatus]

theorem exec_absorb_fault {s : State} (he : s.status.err = none) (h : s.plen.toNat < 168 * (s.blk.toNat + 1)) :
    exec .absorb s = .next { s with status := ⟨false, false, some .index⟩ } :=
  exec_of_rule_error (i := .absorb) he (absorbRule_error (s := accepted s) h)

theorem exec_absorb {s : State} (he : s.status.err = none) (h : 168 * (s.blk.toNat + 1) ≤ s.plen.toNat) :
    exec .absorb s =
      .next { s with a := absorbLanes s s.blk.toNat s.a
                     b := permuteBuffer (xorRate s.a (blockWord s s.blk.toNat))
                     blk := s.blk + 1, status := idleStatus } := by
  rw [exec_of_rule_ok (i := .absorb) he (absorbRule_ok (s := accepted s) h)]
  rfl

theorem exec_squeeze_fault {s : State} (he : s.status.err = none) (h : s.params.obufCapW < s.ocnt.toNat + 21) :
    exec .squeeze s = .next { s with status := ⟨false, false, some .capacity⟩ } :=
  exec_of_rule_error (i := .squeeze) he (squeezeRule_error (s := accepted s) h)

theorem exec_squeeze {s : State} (he : s.status.err = none) (h : s.ocnt.toNat + 21 ≤ s.params.obufCapW) :
    exec .squeeze s =
      .next { s with a := keccakF s.a, b := permuteBuffer s.a
                     obuf := s.obuf.storeBytes (8 * s.ocnt.toNat) (rateBytesOf s.a), ocnt := s.ocnt + 21
                     status := idleStatus } := by
  obtain ⟨u, hu⟩ : ∃ u : State, u = { accepted s with
      a := keccakF s.a, b := permuteBuffer s.a
      obuf := s.obuf.storeBytes (8 * s.ocnt.toNat) (rateBytesOf s.a), ocnt := s.ocnt + 21 } := ⟨_, rfl⟩
  have hr : ruleOf .squeeze (accepted s) = .ok u := by rw [hu]; exact squeezeRule_ok (s := accepted s) h
  rw [exec_of_rule_ok he hr, hu]
  simp only [accepted, finishStatus, idleStatus]

theorem exec_hash_fault {s : State} (he : s.status.err = none)
    (h : s.params.ibufCap ≤ s.ilen.toNat ∨ s.params.obufCapW < 21 * readoutsNeeded s.olen.toNat) :
    exec .hash s = .next { s with status := ⟨false, false, some .capacity⟩ } :=
  exec_of_rule_error (i := .hash) he (hashRule_error (s := accepted s) h)

/-- `HASH` when both checks pass: the whole state it leaves (R184). -/
theorem exec_hash {s : State} (he : s.status.err = none) (hp : s.params.wf) (hi : s.ilen.toNat < s.params.ibufCap)
    (ho : 21 * readoutsNeeded s.olen.toNat ≤ s.params.obufCapW) :
    ∃ blk ocnt : Word, blk.toNat = paddedLen s.ilen.toNat / 168 ∧
      ocnt.toNat = 21 * readoutsNeeded s.olen.toNat ∧
      exec .hash s = .next { s with
        a := shakeSqueezed (hashAbsorbed s).1 (readoutsNeeded s.olen.toNat)
        b := squeezeBuffer (hashAbsorbed s).1 (hashAbsorbed s).2 (readoutsNeeded s.olen.toNat)
        plen := BitVec.ofNat 64 (paddedLen s.ilen.toNat), blk := blk, ocnt := ocnt
        ibuf := (padBytes s s.ilen.toNat).ibuf
        obuf := s.obuf.storeBytes 0 (shakeStream (hashAbsorbed s).1 (readoutsNeeded s.olen.toNat))
        status := ⟨false, true, none⟩ } := by
  obtain ⟨blk, ocnt, h1, h2, h3⟩ := hashRule_ok (s := accepted s) hp hi ho
  refine ⟨blk, ocnt, h1, h2, ?_⟩
  rw [exec_of_rule_ok (i := .hash) he h3]
  have e : hashAbsorbed (accepted s) = hashAbsorbed s := by
    simp only [hashAbsorbed]
    rw [absorbPair_congr (s := padBytes s s.ilen.toNat) (t := padBytes (accepted s) (accepted s).ilen.toNat) rfl rfl]
    rfl
  rw [e]
  rfl

/-- Rounds run as commands: `A` by the lane function, `B` by the last of them. -/
theorem runCommands_rounds (rs : List (Fin 24)) : ∀ (s : State), s.status = idleStatus →
    runCommands (rs.map fun r => .round (BitVec.ofNat 5 r.val)) s =
      .next { s with a := roundsLanes rs s.a
                     b := if rs = [] then s.b else rhoPiLanes (thetaLanes (roundsLanes rs.dropLast s.a)) } := by
  induction rs with
  | nil => intro s _; rfl
  | cons r rs ih =>
    intro s hs
    have hr : (BitVec.ofNat 5 r.val).toNat = r.val := by rw [BitVec.toNat_ofNat]; omega
    have hl : (BitVec.ofNat 5 r.val).toNat < 24 := by omega
    have e : exec (.round (BitVec.ofNat 5 r.val)) s = .next { s with
        a := roundLanes r s.a, b := rhoPiLanes (thetaLanes s.a) } := by
      rw [exec_round (by rw [hs]; rfl) hl, ← hs]
      simp only [hr]
    simp only [List.map_cons, runCommands, e]
    rw [ih { s with a := roundLanes r s.a, b := rhoPiLanes (thetaLanes s.a) } hs]
    cases rs <;> simp [roundsLanes, List.dropLast]

theorem runCommands_append (xs ys : List Instr) : ∀ {s t : State}, runCommands xs s = .next t →
    runCommands (xs ++ ys) s = runCommands ys t := by
  induction xs with
  | nil => intro s t h; cases h; rfl
  | cons i is ih =>
    intro s t h
    simp only [runCommands, List.cons_append] at h ⊢
    cases hx : exec i s with
    | next u => rw [hx] at h; exact ih h
    | fault r => rw [hx] at h; cases h
    | refused r => rw [hx] at h; cases h

/-- Absorbing as commands: `n` whole blocks from block `BLK`. -/
theorem runCommands_absorb (n : Nat) : ∀ (s : State), s.status = idleStatus →
    168 * (s.blk.toNat + n) ≤ s.plen.toNat →
    ∃ blk : Word, blk.toNat = s.blk.toNat + n ∧
      runCommands (List.replicate n .absorb) s =
        .next { s with a := (absorbPair s s.blk.toNat n (s.a, s.b)).1
                       b := (absorbPair s s.blk.toNat n (s.a, s.b)).2
                       blk := blk } := by
  induction n with
  | zero => intro s _ _; exact ⟨s.blk, rfl, rfl⟩
  | succ n ih =>
    intro s hs h
    have hlt := s.plen.isLt
    have hb : (s.blk + 1).toNat = s.blk.toNat + 1 := toNat_add_one (m := s.plen.toNat) (by omega) hlt
    rw [List.replicate_succ, runCommands, exec_absorb (by rw [hs]; rfl) (by omega), ← hs]
    simp only []
    generalize hu : ({ s with a := _, b := _, blk := s.blk + 1 } : State) = u
    have hub : u.blk = s.blk + 1 := by rw [← hu]
    have hup : u.plen = s.plen := by rw [← hu]
    obtain ⟨blk, e1, e2⟩ := ih u (by rw [← hu]; exact hs) (by rw [hub, hup, hb]; omega)
    refine ⟨blk, by rw [e1, hub, hb]; omega, ?_⟩
    rw [e2, absorbPair_congr (s := s) (by rw [← hu]) (by rw [← hu]), hub, hb]
    subst hu
    simp only [absorbPair]

/-- Squeezing as commands: `n` read-outs from word `OCNT`. -/
theorem runCommands_squeeze (n : Nat) : ∀ (s : State), s.status = idleStatus →
    s.ocnt.toNat + 21 * n ≤ s.params.obufCapW → s.params.obufCapW < 2 ^ 64 →
    ∃ ocnt : Word, ocnt.toNat = s.ocnt.toNat + 21 * n ∧
      runCommands (List.replicate n .squeeze) s =
        .next { s with a := shakeSqueezed s.a n
                       b := squeezeBuffer s.a s.b n
                       obuf := s.obuf.storeBytes (8 * s.ocnt.toNat) (shakeStream s.a n)
                       ocnt := ocnt } := by
  induction n with
  | zero => intro s _ _ _; exact ⟨s.ocnt, rfl, rfl⟩
  | succ n ih =>
    intro s hs h hw
    have ho : (s.ocnt + 21).toNat = s.ocnt.toNat + 21 := toNat_add_21 (m := s.params.obufCapW) (by omega) hw
    rw [List.replicate_succ, runCommands, exec_squeeze (by rw [hs]; rfl) (by omega), ← hs]
    simp only []
    generalize hu : ({ s with a := _, b := _, obuf := _, ocnt := s.ocnt + 21 } : State) = u
    have hua : u.a = keccakF s.a := by rw [← hu]
    have hub : u.b = permuteBuffer s.a := by rw [← hu]
    have huo : u.ocnt = s.ocnt + 21 := by rw [← hu]
    have hup : u.params = s.params := by rw [← hu]
    obtain ⟨oc, e1, e2⟩ := ih u (by rw [← hu]; exact hs) (by rw [huo, hup, ho]; omega) (by rw [hup]; exact hw)
    refine ⟨oc, by rw [e1, huo, ho]; omega, ?_⟩
    rw [e2, hua, hub, huo, ho, shakeSqueezed_succ', shakeStream_succ, Memory.storeBytes_append, length_rateBytesOf]
    have hm : 8 * s.ocnt.toNat + 168 = 8 * (s.ocnt.toNat + 21) := by omega
    have hb : squeezeBuffer (keccakF s.a) (permuteBuffer s.a) n = squeezeBuffer s.a s.b (n + 1) := by
      cases n with
      | zero => rfl
      | succ m => simp only [squeezeBuffer, shakeSqueezed_succ']
    rw [hm, hb, ← hu]

/-- The first command of a run may find `DONE = 1`; it leaves what it leaves when `DONE = 0`. -/
theorem exec_done {s : State} (he : s.status.err = none) (i : Instr) (hi : ∃ u, ruleOf i (accepted s) = .ok u) :
    exec i s = exec i { s with status := idleStatus } := by
  obtain ⟨u, hu⟩ := hi
  rw [exec_of_rule_ok he hu, exec_of_rule_ok (s := { s with status := idleStatus }) rfl hu]

end Sys2Proof.Machine
end

