-- ==== Sys2Proof/Laws/Frames.lean ====
section
/-! SUPPORT. What every rule of a command leaves alone, on every state, and where a rule can fail. -/

namespace Sys2Proof.Machine

/-- `u` differs from `s` only in the fields that commands write, and the bytes of `IBUF` below `ILEN` are the same. -/
structure Keeps (s u : State) : Prop where
  params : u.params = s.params
  ilen   : u.ilen = s.ilen
  olen   : u.olen = s.olen
  resets : u.resets = s.resets
  inbox  : u.inbox = s.inbox
  reply  : u.reply = s.reply
  status : u.status = s.status
  message : ∀ k, k < s.ilen.toNat → u.ibuf.lookup k = s.ibuf.lookup k

theorem Keeps.refl (s : State) : Keeps s s := ⟨rfl, rfl, rfl, rfl, rfl, rfl, rfl, fun _ _ => rfl⟩

theorem Keeps.trans {s t u : State} (h : Keeps s t) (k : Keeps t u) : Keeps s u where
  params := k.params.trans h.params
  ilen := k.ilen.trans h.ilen
  olen := k.olen.trans h.olen
  resets := k.resets.trans h.resets
  inbox := k.inbox.trans h.inbox
  reply := k.reply.trans h.reply
  status := k.status.trans h.status
  message := fun j hj => (k.message j (by rw [h.ilen]; exact hj)).trans (h.message j hj)

theorem padRule_keeps {s u : State} (h : padRule s = .ok u) : Keeps s u := by
  by_cases hc : s.ilen.toNat < s.params.ibufCap
  · rw [padRule_ok hc] at h
    obtain rfl := Except.ok.inj h
    refine ⟨rfl, rfl, rfl, rfl, rfl, rfl, rfl, fun k hk => ?_⟩
    have hb := paddedLen_bounds s.ilen.toNat
    show (padBytes s s.ilen.toNat).ibuf.lookup k = _
    rw [lookup_padBytes, if_neg (by omega), if_neg (by omega), if_neg (by omega)]
  · rw [padRule_error (by omega)] at h; cases h

theorem xorbRule_keeps {s u : State} (h : xorbRule s = .ok u) : Keeps s u := by
  by_cases hc : 168 * (s.blk.toNat + 1) ≤ s.plen.toNat
  · rw [xorbRule_ok hc] at h
    obtain rfl := Except.ok.inj h
    exact ⟨rfl, rfl, rfl, rfl, rfl, rfl, rfl, fun _ _ => rfl⟩
  · rw [xorbRule_error (by omega)] at h; cases h

theorem extbRule_keeps {s u : State} (h : extbRule s = .ok u) : Keeps s u := by
  by_cases hc : s.ocnt.toNat + 21 ≤ s.params.obufCapW
  · rw [extbRule_ok hc] at h
    obtain rfl := Except.ok.inj h
    exact ⟨rfl, rfl, rfl, rfl, rfl, rfl, rfl, fun _ _ => rfl⟩
  · rw [extbRule_error (by omega)] at h; cases h

theorem permuteState_keeps (s : State) : Keeps s (permuteState s) := by
  rw [permuteState_eq]; exact ⟨rfl, rfl, rfl, rfl, rfl, rfl, rfl, fun _ _ => rfl⟩

theorem absorbRule_keeps {s u : State} (h : absorbRule s = .ok u) : Keeps s u := by
  cases hx : xorbRule s with
  | error c => simp [absorbRule, hx, bind, Except.bind] at h
  | ok t =>
    simp only [absorbRule, hx, bind, Except.bind, pure, Except.pure] at h
    obtain rfl := Except.ok.inj h
    exact (xorbRule_keeps hx).trans (permuteState_keeps t)

theorem squeezeRule_keeps {s u : State} (h : squeezeRule s = .ok u) : Keeps s u := by
  cases hx : extbRule s with
  | error c => simp [squeezeRule, hx, bind, Except.bind] at h
  | ok t =>
    simp only [squeezeRule, hx, bind, Except.bind, pure, Except.pure] at h
    obtain rfl := Except.ok.inj h
    exact (extbRule_keeps hx).trans (permuteState_keeps t)

theorem absorbLoop_keeps (n : Nat) : ∀ {s u : State}, absorbLoop n s = .ok u → Keeps s u := by
  induction n with
  | zero => intro s u h; obtain rfl := Except.ok.inj h; exact Keeps.refl _
  | succ n ih =>
    intro s u h
    cases hx : absorbRule s with
    | error c => simp [absorbLoop, hx, bind, Except.bind] at h
    | ok t =>
      simp only [absorbLoop, hx, bind, Except.bind] at h
      exact (absorbRule_keeps hx).trans (ih h)

theorem squeezeLoop_keeps (nw fuel : Nat) : ∀ {s u : State}, squeezeLoop nw fuel s = .ok u → Keeps s u := by
  induction fuel with
  | zero => intro s u h; obtain rfl := Except.ok.inj h; exact Keeps.refl _
  | succ n ih =>
    intro s u h
    rw [squeezeLoop] at h
    split at h
    · cases hx : squeezeRule s with
      | error c => simp [hx, bind, Except.bind] at h
      | ok t =>
        simp only [hx, bind, Except.bind] at h
        exact (squeezeRule_keeps hx).trans (ih h)
    · obtain rfl := Except.ok.inj h; exact Keeps.refl _

/-- `HASH` changes `STATUS` by setting `DONE`, and is otherwise as every command. -/
theorem hashRule_keeps {s u : State} (h : hashRule s = .ok u) :
    ∃ w, Keeps s w ∧ u = { w with status := { s.status with done := true } } := by
  rw [hashRule] at h
  split at h
  · cases h
  · split at h
    · cases h
    · cases h1 : padRule (initState s) with
      | error c => simp [h1, bind, Except.bind] at h
      | ok t =>
        simp only [h1, bind, Except.bind] at h
        cases h2 : absorbLoop (t.plen.toNat / 168) t with
        | error c => simp [h2] at h
        | ok v =>
          simp only [h2] at h
          cases h3 : squeezeLoop (wordsNeeded s.olen.toNat) (wordsNeeded s.olen.toNat) v with
          | error c => simp [h3] at h
          | ok w =>
            simp only [h3, pure, Except.pure] at h
            have h0 : Keeps s (initState s) := ⟨rfl, rfl, rfl, rfl, rfl, rfl, rfl, fun _ _ => rfl⟩
            have hk := ((h0.trans (padRule_keeps h1)).trans (absorbLoop_keeps _ h2)).trans (squeezeLoop_keeps _ _ h3)
            refine ⟨w, hk, ?_⟩
            obtain rfl := Except.ok.inj h
            rw [hk.status]

/-- A format `R` rule that does not fail has a legal round index. -/
theorem withRound_inv {r : BitVec 5} {rule : Fin 24 → State → State} {s u : State}
    (h : withRound r rule s = .ok u) : ∃ hr : r.toNat < 24, u = rule ⟨r.toNat, hr⟩ s := by
  unfold withRound at h
  split at h
  · rename_i hr; exact ⟨hr, (Except.ok.inj h).symm⟩
  · cases h

/-- What every command leaves alone (R28, R29, R38), on every state. -/
theorem ruleOf_keeps {i : Instr} {s u : State} (h : ruleOf i s = .ok u) :
    ∃ w, Keeps s w ∧ u = { w with status := { s.status with done := s.status.done || i == .hash } } := by
  have lift : ∀ {w : State}, Keeps s w → i ≠ .hash →
      ∃ w', Keeps s w' ∧ w = { w' with status := { s.status with done := s.status.done || i == .hash } } := by
    intro w hk hi
    refine ⟨w, hk, ?_⟩
    have : (i == .hash) = false := by simpa using hi
    rw [this, Bool.or_false, ← hk.status]
  have plain : ∀ {t : State}, t = u → Keeps s t → i ≠ .hash →
      ∃ w', Keeps s w' ∧ u = { w' with status := { s.status with done := s.status.done || i == .hash } } := by
    rintro t rfl hk hi; exact lift hk hi
  cases i with
  | theta => exact plain (Except.ok.inj h) ⟨rfl, rfl, rfl, rfl, rfl, rfl, rfl, fun _ _ => rfl⟩ (by decide)
  | rhopi => exact plain (Except.ok.inj h) ⟨rfl, rfl, rfl, rfl, rfl, rfl, rfl, fun _ _ => rfl⟩ (by decide)
  | chi => exact plain (Except.ok.inj h) ⟨rfl, rfl, rfl, rfl, rfl, rfl, rfl, fun _ _ => rfl⟩ (by decide)
  | iota r =>
    obtain ⟨hr, e⟩ := withRound_inv h
    exact plain e.symm ⟨rfl, rfl, rfl, rfl, rfl, rfl, rfl, fun _ _ => rfl⟩ (by simp)
  | round r =>
    obtain ⟨hr, e⟩ := withRound_inv h
    exact plain e.symm ⟨rfl, rfl, rfl, rfl, rfl, rfl, rfl, fun _ _ => rfl⟩ (by simp)
  | permute => exact plain (Except.ok.inj h) (permuteState_keeps s) (by decide)
  | init => exact plain (Except.ok.inj h) ⟨rfl, rfl, rfl, rfl, rfl, rfl, rfl, fun _ _ => rfl⟩ (by decide)
  | pad => exact lift (padRule_keeps h) (by decide)
  | xorb => exact lift (xorbRule_keeps h) (by decide)
  | extb => exact lift (extbRule_keeps h) (by decide)
  | absorb => exact lift (absorbRule_keeps h) (by decide)
  | squeeze => exact lift (squeezeRule_keeps h) (by decide)
  | hash =>
    obtain ⟨w, hk, e⟩ := hashRule_keeps h
    exact ⟨w, hk, by rw [e]; simp⟩

/-! ### Where a rule can fail -/

theorem xorbRule_code {s : State} {c : FaultCode} (h : xorbRule s = .error c) : c = .index := by
  unfold xorbRule at h
  split at h
  · exact (Except.error.inj h).symm
  · cases h

theorem extbRule_code {s : State} {c : FaultCode} (h : extbRule s = .error c) : c = .capacity := by
  unfold extbRule at h
  split at h
  · exact (Except.error.inj h).symm
  · cases h

theorem padRule_code {s : State} {c : FaultCode} (h : padRule s = .error c) : c = .capacity := by
  unfold padRule at h
  split at h
  · exact (Except.error.inj h).symm
  · cases h

theorem absorbRule_code {s : State} {c : FaultCode} (h : absorbRule s = .error c) : c = .index := by
  cases hx : xorbRule s with
  | error d =>
    simp only [absorbRule, hx, bind, Except.bind] at h
    rw [← Except.error.inj h]; exact xorbRule_code hx
  | ok t => simp [absorbRule, hx, bind, Except.bind, pure, Except.pure] at h

theorem squeezeRule_code {s : State} {c : FaultCode} (h : squeezeRule s = .error c) : c = .capacity := by
  cases hx : extbRule s with
  | error d =>
    simp only [squeezeRule, hx, bind, Except.bind] at h
    rw [← Except.error.inj h]; exact extbRule_code hx
  | ok t => simp [squeezeRule, hx, bind, Except.bind, pure, Except.pure] at h

theorem absorbLoop_code (n : Nat) : ∀ {s : State} {c : FaultCode}, absorbLoop n s = .error c → c = .index := by
  induction n with
  | zero => intro s c h; cases h
  | succ n ih =>
    intro s c h
    cases hx : absorbRule s with
    | error d =>
      simp only [absorbLoop, hx, bind, Except.bind] at h
      rw [← Except.error.inj h]; exact absorbRule_code hx
    | ok t =>
      simp only [absorbLoop, hx, bind, Except.bind] at h
      exact ih h

theorem squeezeLoop_code (nw fuel : Nat) : ∀ {s : State} {c : FaultCode},
    squeezeLoop nw fuel s = .error c → c = .capacity := by
  induction fuel with
  | zero => intro s c h; cases h
  | succ n ih =>
    intro s c h
    rw [squeezeLoop] at h
    split at h
    · cases hx : squeezeRule s with
      | error d =>
        simp only [hx, bind, Except.bind] at h
        rw [← Except.error.inj h]; exact squeezeRule_code hx
      | ok t =>
        simp only [hx, bind, Except.bind] at h
        exact ih h
    · cases h

theorem hashRule_code {s : State} {c : FaultCode} (h : hashRule s = .error c) : c = .capacity ∨ c = .index := by
  rw [hashRule] at h
  split at h
  · exact .inl (Except.error.inj h).symm
  · split at h
    · exact .inl (Except.error.inj h).symm
    · cases h1 : padRule (initState s) with
      | error d =>
        simp only [h1, bind, Except.bind] at h
        rw [← Except.error.inj h]; exact .inl (padRule_code h1)
      | ok t =>
        simp only [h1, bind, Except.bind] at h
        cases h2 : absorbLoop (t.plen.toNat / 168) t with
        | error d =>
          simp only [h2] at h
          rw [← Except.error.inj h]; exact .inr (absorbLoop_code _ h2)
        | ok v =>
          simp only [h2] at h
          cases h3 : squeezeLoop (wordsNeeded s.olen.toNat) (wordsNeeded s.olen.toNat) v with
          | error d =>
            simp only [h3] at h
            rw [← Except.error.inj h]; exact .inl (squeezeLoop_code _ _ h3)
          | ok w => simp [h3, pure, Except.pure] at h

/-- A well-formed command raises `CAPACITY` or `INDEX` and nothing else (R204). -/
theorem ruleOf_code {i : Instr} {s : State} {c : FaultCode} (hi : WellFormed i = true) (h : ruleOf i s = .error c) :
    c = .capacity ∨ c = .index := by
  cases i with
  | theta | rhopi | chi | permute | init => cases h
  | iota r | round r =>
    have hr : r.toNat < 24 := by simpa [WellFormed, roundIndexLegal] using hi
    rw [ruleOf, withRound_legal hr] at h; cases h
  | pad => exact .inl (padRule_code h)
  | xorb => exact .inr (xorbRule_code h)
  | extb => exact .inl (extbRule_code h)
  | absorb => exact .inr (absorbRule_code h)
  | squeeze => exact .inl (squeezeRule_code h)
  | hash => exact hashRule_code h

end Sys2Proof.Machine
end

