-- ==== Sys2Proof/Tests/Slice0.lean ====
section
/-! SUPPORT. Small tests. Expected values are from spec/95_test_vectors.md (the vector is named at each test) or
written out from the encoding tables of spec/30_encoding.md. After them, one witness theorem for each statement of
Certificates/Slice0/Obligations.lean that has hypotheses: a concrete state and operands that meet all of them. -/

namespace Sys2Proof.Tests

open Sys2Proof Sys2Proof.Machine

/-! ### Helpers -/

/-- A field of the state that a host move leaves, `none` if the move is refused. -/
def afterMove {α : Type} (m : HostMove) (s : State) (f : State → α) : Option α :=
  match issue m s with
  | .next t => some (f t)
  | .fault _ => none
  | .refused _ => none

/-- A field of the state that a value written to `CMD` leaves. -/
def afterCmd {α : Type} (v : Word) (s : State) (f : State → α) : Option α := afterMove (.writeReg 0 v) s f

/-- `STATUS` and everything else a command word may have changed. -/
def statusAfter (v : Word) (s : State) : Option Word := afterCmd v s fun t => statusWord t.status

/-- A value of `CMD` from its fields as the bit pattern has them: bits 63:16, 15:8, 7:5, 4:0. -/
def word (high : BitVec 48) (op : BitVec 8) (res : BitVec 3) (r : BitVec 5) : Word := high ++ (op ++ (res ++ r))

def lanesFrom (f : Nat → Word) : Lanes := Vector.ofFn fun i => f i.val

/-- The reset state with lanes. -/
def withLanes (f : Nat → Word) : State := { State.reset with a := lanesFrom f }

/-! ### WellFormed refuses ill-formed terms (R102) -/

theorem test_wf_iota_24 : WellFormed (.iota 24) = false := by decide
theorem test_wf_iota_31 : WellFormed (.iota 31) = false := by decide
theorem test_wf_iota_23 : WellFormed (.iota 23) = true := by decide
theorem test_wf_round_24 : WellFormed (.round 24) = false := by decide
theorem test_wf_round_23 : WellFormed (.round 23) = true := by decide

/-! ### Decoding: each command by the word R103's table gives it, bit by bit -/

theorem test_decode_theta : decodeCmd (word 0 0b00010000 0b000 0b00000) = .ok .theta := by decide
theorem test_decode_rhopi : decodeCmd (word 0 0b00010001 0b000 0b00000) = .ok .rhopi := by decide
theorem test_decode_chi : decodeCmd (word 0 0b00010010 0b000 0b00000) = .ok .chi := by decide
theorem test_decode_iota : decodeCmd (word 0 0b00010011 0b000 0b10111) = .ok (.iota 23) := by decide
theorem test_decode_round : decodeCmd (word 0 0b00011000 0b000 0b00101) = .ok (.round 5) := by decide
theorem test_decode_permute : decodeCmd (word 0 0b00011001 0b000 0b00000) = .ok .permute := by decide
theorem test_decode_init : decodeCmd (word 0 0b00100000 0b000 0b00000) = .ok .init := by decide
theorem test_decode_pad : decodeCmd (word 0 0b00100001 0b000 0b00000) = .ok .pad := by decide
theorem test_decode_xorb : decodeCmd (word 0 0b00100010 0b000 0b00000) = .ok .xorb := by decide
theorem test_decode_extb : decodeCmd (word 0 0b00100011 0b000 0b00000) = .ok .extb := by decide
theorem test_decode_absorb : decodeCmd (word 0 0b00101000 0b000 0b00000) = .ok .absorb := by decide
theorem test_decode_squeeze : decodeCmd (word 0 0b00101001 0b000 0b00000) = .ok .squeeze := by decide
theorem test_decode_hash : decodeCmd (word 0 0b00101111 0b000 0b00000) = .ok .hash := by decide

/-- The illegal rows of T24, each with the item of R104 it falls under. -/
theorem test_decode_illegal :
    decodeCmd 0x0000 = .error .opcode ∧ decodeCmd 0x1001 = .error .operandByte ∧
    decodeCmd 0x1318 = .error .roundIndex ∧ decodeCmd 0x131F = .error .roundIndex ∧
    decodeCmd 0x1320 = .error .reservedBits ∧ decodeCmd 0x1818 = .error .roundIndex ∧
    decodeCmd 0x1880 = .error .reservedBits ∧ decodeCmd 0x1400 = .error .opcode ∧
    decodeCmd 0x1A00 = .error .opcode ∧ decodeCmd 0x2400 = .error .opcode ∧
    decodeCmd 0x2F01 = .error .operandByte ∧ decodeCmd 0x3000 = .error .opcode ∧
    decodeCmd 0xFF00 = .error .opcode ∧ decodeCmd 0x12F00 = .error .highBits ∧
    decodeCmd 0x8000000000002F00 = .error .highBits := by decide

theorem test_encode_words :
    encode (.iota 23) = 0x1317 ∧ encode (.round 5) = 0x1805 ∧ encode .permute = 0x1900 ∧
    encode .squeeze = 0x2900 ∧ encode .hash = 0x2F00 := by decide

theorem test_table_word : decodeTableWord 16 0x1805 = some (.round 5) ∧ decodeTableWord 16 0x1818 = none := by decide

/-! ### Commands -/

/-- T1. -/
theorem test_theta_one_bit :
    afterCmd 0x1000 (withLanes fun i => if i = 0 then 1 else 0) (fun t => (t.a[0], t.a[1], t.a[4], t.a[6], t.a[24]))
      = some (1, 1, 2, 1, 2) := by decide +kernel

/-- T2. -/
theorem test_theta_distinct :
    afterCmd 0x1000 (withLanes fun i => BitVec.ofNat 64 (i + 1))
      (fun t => (t.a[0], t.a[3], t.a[9], t.a[12], t.a[20], t.a[23]))
      = some (0x10, 0x1D, 0x10, 0x13, 0x04, 0x01) := by decide +kernel

/-- T4. -/
theorem test_rhopi_offsets :
    afterCmd 0x1100 (withLanes fun _ => 1) (fun t => (t.b[1], t.b[9], t.b[10], t.b[19], t.b[24], t.a[1]))
      = some (0x0000100000000000, 0x2000000000000000, 2, 0x0100000000000000, 4, 1) := by decide +kernel

/-- T5. -/
theorem test_rhopi_wraps :
    afterCmd 0x1100 (withLanes fun i => 0x8000000000000000 + BitVec.ofNat 64 i)
      (fun t => (t.b[1], t.b[9], t.b[10], t.b[20])) =
      some (0x0000680000000000, 0xD000000000000002, 3, 0xA000000000000000) := by decide +kernel

/-- T6. -/
theorem test_chi_rows :
    afterCmd 0x1200 { State.reset with b := lanesFrom fun i => BitVec.ofNat 64 i }
      (fun t => (t.a[0], t.a[4], t.a[6], t.a[18], t.a[24], t.b[4])) = some (2, 5, 0x0E, 0x1E, 0x19, 4) := by
  decide +kernel

/-- T9. -/
theorem test_iota_23 :
    afterCmd 0x1317 (withLanes fun _ => 0xFFFFFFFFFFFFFFFF) (fun t => (t.a[0], t.a[1], statusWord t.status)) =
      some (0x7FFFFFFF7FFF7FF7, 0xFFFFFFFFFFFFFFFF, 0) := by decide +kernel

/-- T13. -/
theorem test_round_5 :
    afterCmd 0x1805 (withLanes fun i => BitVec.ofNat 64 i) (fun t => (t.a[0], t.a[7], t.a[24], t.b[0], t.b[21])) =
      some (0x000018008000001B, 0x2000000000000083, 0x0B00000000000074, 0x1A, 0x0B00000000000000) := by
  decide +kernel

/-- T10. -/
theorem test_permute_zero :
    afterCmd 0x1900 State.reset (fun t => (t.a[0], t.a[24], t.b[0])) =
      some (0xF1258F7940E1DDE7, 0xEAF1FF7B5CECA249, 0x2205AD7B44E8659B) := by decide +kernel

/-- T17: `INIT` on a state with everything set. -/
theorem test_init :
    afterCmd 0x2000
      { withLanes (fun _ => 7) with
        b := lanesFrom (fun _ => 7), plen := 168, blk := 1, ocnt := 42, ilen := 9, olen := 10 }
      (fun t => (t.a[3], t.b[3], t.plen, t.blk, t.ocnt, t.ilen, t.olen)) = some (0, 0, 0, 0, 0, 9, 10) := by
  decide +kernel

/-- T12 row 3, with the bytes around the padding. -/
theorem test_pad_166 :
    afterCmd 0x2100 { State.reset with ilen := 166, ibuf := [(165, 0xA3), (167, 0xEE), (168, 0xEE)] }
      (fun t => (t.plen, (List.range 4).map fun k => ibufByte t (165 + k))) =
      some (168, [0xA3, 0x1F, 0x80, 0xEE]) := by decide +kernel

/-- T12 rows 6 and 7. -/
theorem test_pad_335_336 :
    afterCmd 0x2100 { State.reset with ilen := 335 } (fun t => (t.plen, ibufByte t 335, statusWord t.status)) =
      some (336, 0x9F, 0) ∧
    afterCmd 0x2100 { State.reset with ilen := 336 } (fun t => (t.plen, t.ibuf, statusWord t.status)) =
      some (0, [], 0x0300) := by decide +kernel

/-- `IBUF` after `PAD` of "abc" (R165's example). -/
def paddedAbc : Memory := Memory.storeBytes [] 0 ([0x61, 0x62, 0x63, 0x1F] ++ List.replicate 163 0 ++ [0x80])

/-- T14. -/
theorem test_xorb_abc :
    afterCmd 0x2200 { State.reset with ilen := 3, plen := 168, ibuf := paddedAbc }
      (fun t => (t.a[0], t.a[1], t.a[20], t.a[21], t.blk)) = some (0x1F636261, 0, 0x8000000000000000, 0, 1) := by
  decide +kernel

/-- T14, T25: with every block absorbed, `XORB` and `ABSORB` fault `INDEX`. -/
theorem test_xorb_absorb_fault :
    statusAfter 0x2200 { State.reset with plen := 168, blk := 1 } = some 0x0200 ∧
    afterCmd 0x2800 { withLanes (fun _ => 5) with plen := 168, blk := 1 } (fun t => (t.a[0], t.blk)) =
      some (5, 1) := by decide +kernel

/-- T15. -/
theorem test_extb_bytes :
    afterCmd 0x2300 (withLanes fun i => if i = 0 then 0x7D828FE8A42B9C7F else if i = 20 then 0x0123456789ABCDEF else 0)
      (fun t => (t.ocnt, (List.range 8).map (obufByte t), (List.range 8).map fun k => obufByte t (160 + k))) =
      some (21, [0x7f, 0x9c, 0x2b, 0xa4, 0xe8, 0x8f, 0x82, 0x7d],
        [0xef, 0xcd, 0xab, 0x89, 0x67, 0x45, 0x23, 0x01]) := by decide +kernel

/-- T15, T25: a third read-out does not fit 42 words. -/
theorem test_extb_squeeze_fault :
    afterCmd 0x2300 { State.reset with ocnt := 42 } (fun t => (statusWord t.status, t.ocnt)) = some (0x0300, 42) ∧
    statusAfter 0x2900 { State.reset with ocnt := 42 } = some 0x0300 := by decide +kernel

/-- T18: `ABSORB` of the empty message's only block. -/
theorem test_absorb_empty :
    afterCmd 0x2800 { State.reset with plen := 168, ibuf := (padBytes State.reset 0).ibuf }
      (fun t => (t.a[0], t.a[24], t.blk)) = some (0x7D828FE8A42B9C7F, 0xCC7BE53A2EC027B5, 1) := by decide +kernel

/-- T24's `SQUEEZE` row: 21 zero words out. -/
theorem test_squeeze_zero :
    afterCmd 0x2900 State.reset (fun t => (t.ocnt, obufByte t 0, obufByte t 167, statusWord t.status)) =
      some (21, 0, 0, 0) := by decide +kernel

/-- T19 (S5): `hash([], 16)`. -/
theorem test_hash_empty_16 :
    afterCmd 0x2F00 { State.reset with olen := 16 }
      (fun t => (t.plen, t.blk, t.ocnt, statusWord t.status, (List.range 16).map (obufByte t))) =
      some (168, 1, 21, 2, [0x7f, 0x9c, 0x2b, 0xa4, 0xe8, 0x8f, 0x82, 0x7d,
                            0x61, 0x60, 0x45, 0x50, 0x76, 0x05, 0x85, 0x3e]) := by decide +kernel

/-- T25: the two capacity checks of `HASH`, before anything is written. -/
theorem test_hash_capacity :
    afterCmd 0x2F00 { State.reset with ilen := 336 } (fun t => (statusWord t.status, t.plen)) = some (0x0300, 0) ∧
    afterCmd 0x2F00 { withLanes (fun _ => 5) with olen := 337 } (fun t => (statusWord t.status, t.a[0], t.ocnt)) =
      some (0x0300, 5, 0) := by decide +kernel

/-! ### The host interface -/

/-- T28. -/
theorem test_registers :
    afterMove (.writeReg 4 99) State.reset (fun t => t.plen) = some 0 ∧
    afterMove (.writeReg 64 7) State.reset (fun t => t.b[0]) = some 0 ∧
    afterMove (.writeReg 57 7) State.reset (fun t => t) = some State.reset ∧
    afterMove (.writeReg 56 0xDEADBEEF00000001) State.reset (fun t => readReg t 56) = some 0xDEADBEEF00000001 := by
  decide +kernel

/-- T25: `RB 336`, and `WR OLEN, 8 ; RO 0`. -/
theorem test_reads_out_of_range :
    afterMove (.readIbuf 336) State.reset (fun t => (t.reply, statusWord t.status)) =
      some (some (.byte 0), 0x0200) ∧
    afterMove (.readObuf 0) { State.reset with olen := 8 } (fun t => (t.reply, statusWord t.status)) =
      some (some (.byte 0), 0x0200) := by decide +kernel

/-- T26: in the halted state an illegal word is ignored, and `STATUS` keeps the first fault. -/
theorem test_halted :
    statusAfter 0x0000 { State.reset with status := ⟨false, false, some .index⟩ } = some 0x0200 := by decide +kernel

theorem test_reset_memory_wf : State.reset.ibuf.wf ∧ State.reset.obuf.wf := by decide

theorem test_withFetchWord_runs :
    step (State.reset.withFetchWord 16 0x1000) = .next State.reset := by rfl

/-! ### Witnesses: states that meet the hypotheses of the statements -/

/-- The reset state has admissible capacities, no fault and no command in progress: the hypotheses of the
statements of a command's result that have only these. -/
theorem witness_ready :
    State.reset.params.wf ∧ State.reset.status.err = none ∧ State.reset.status.busy = false ∧
    State.reset.ibuf.wf ∧ State.reset.inbox = [] := by decide

theorem witness_inv_reset : Inv State.reset where
  capacities := by decide
  ibufSorted := by decide
  obufSorted := by decide
  ibufInside := by decide
  obufInside := by decide
  plenBlocks := by decide
  plenFits := by decide
  ocntBlocks := by decide
  ocntFits := by decide
  obufWritten := by intro a h; simp [State.reset, State.atReset] at h
  idle := rfl
  haltedDone := fun _ => rfl

/-- A state with one block of zeros read out, `OLEN = 8`. -/
def readOut : State := { State.reset with olen := 8, ocnt := 21, obuf := (List.range 168).map fun a => (a, 0) }

theorem inv_readOut : Inv readOut where
  capacities := by decide
  ibufSorted := by decide
  obufSorted := by decide +kernel
  ibufInside := by decide
  obufInside := by decide +kernel
  plenBlocks := by decide
  plenFits := by decide
  ocntBlocks := by decide
  ocntFits := by decide
  obufWritten := by
    have h : 8 * readOut.ocnt.toNat = 168 := by decide
    rw [h]; decide +kernel
  idle := rfl
  haltedDone := fun _ => rfl

/-- A halted state. -/
def haltedState : State := { State.reset with status := ⟨false, false, some .index⟩ }

theorem inv_haltedState : Inv haltedState := { witness_inv_reset with haltedDone := fun _ => rfl }

/-- IllegalValuesFaultAndDoNothingElse: a value for each of the five items of R104, and the last legal index. -/
theorem witness_IllegalValuesFaultAndDoNothingElse :
    (0x12F00#64).toNat / 2 ^ 16 ≠ 0 ∧ (0x1400#64).toNat / 2 ^ 8 % 2 ^ 8 = 0x14 ∧
    ((0x1001#64).toNat / 2 ^ 8 % 2 ^ 8 = 0x10 ∧ (0x1001#64).toNat % 2 ^ 8 ≠ 0) ∧
    ((0x1320#64).toNat / 2 ^ 8 % 2 ^ 8 = 0x13 ∧ (0x1320#64).toNat / 2 ^ 5 % 2 ^ 3 ≠ 0) ∧
    ((0x1318#64).toNat / 2 ^ 5 % 2 ^ 3 = 0 ∧ (0x1318#64).toNat % 2 ^ 5 = 24) ∧
    statusAfter 0x12F00 State.reset = some 0x0100 ∧ statusAfter 0x1400 State.reset = some 0x0100 ∧
    statusAfter 0x1001 State.reset = some 0x0100 ∧ statusAfter 0x1320 State.reset = some 0x0100 ∧
    statusAfter 0x1318 State.reset = some 0x0100 ∧ statusAfter 0x1317 State.reset = some 0 := by decide +kernel

theorem witness_StepRunsTheDecodedCommand :
    (State.reset.withFetchWord 16 0x1817).inbox = [.writeReg 0 0x1817] ∧
    (State.reset.withFetchWord 16 0x1817).status.busy = false ∧
    (State.reset.withFetchWord 16 0x1817).status.err = none ∧ decodeCmd 0x1817 = .ok (.round 23) := by decide

/-- CommandWriteProtocol, EachCommandFaultsExactlyWhen: the commands that can fault, on both sides of each check. -/
theorem witness_CommandWriteProtocol :
    (∀ i, decodeCmd 0x0000 ≠ .ok i) ∧ haltedState.status.err ≠ none ∧ haltedState.status.busy = false ∧
    statusAfter 0x2100 { State.reset with ilen := 335 } = some 0 ∧
    statusAfter 0x2100 { State.reset with ilen := 336 } = some 0x0300 ∧
    statusAfter 0x2200 { State.reset with plen := 168 } = some 0 ∧
    statusAfter 0x2200 { State.reset with plen := 168, blk := 1 } = some 0x0200 ∧
    statusAfter 0x2300 { State.reset with ocnt := 21 } = some 0 ∧
    statusAfter 0x2300 { State.reset with ocnt := 42 } = some 0x0300 ∧
    statusAfter 0x2F00 { State.reset with olen := 337 } = some 0x0300 := by
  refine ⟨fun i => ?_, by decide, by decide, by decide +kernel, by decide +kernel, by decide +kernel,
    by decide +kernel, by decide +kernel, by decide +kernel, by decide +kernel⟩
  rw [show decodeCmd 0x0000 = .error .opcode by decide]; simp

/-- HostWriteRegWritesOnlyItsRegister, HostReadRegReturnsTheRegister: a register number at each boundary. -/
theorem witness_HostRegisters :
    afterMove (.writeReg 2 9) State.reset (fun t => (t.ilen, t.olen)) = some (9, 0) ∧
    afterMove (.writeReg 3 9) State.reset (fun t => (t.ilen, t.olen)) = some (0, 9) ∧
    afterMove (.writeReg 31 9) State.reset (fun t => t) = some State.reset ∧
    afterMove (.writeReg 32 9) State.reset (fun t => (t.a[0], t.a[1])) = some (9, 0) ∧
    afterMove (.writeReg 56 9) State.reset (fun t => (t.a[24], t.a[23])) = some (9, 0) ∧
    afterMove (.writeReg 57 9) State.reset (fun t => t) = some State.reset ∧
    afterMove (.readReg 88) { State.reset with b := lanesFrom fun i => BitVec.ofNat 64 i } (fun t => t.reply) =
      some (some (.word 24)) ∧
    afterMove (.readReg 89) { State.reset with b := lanesFrom fun i => BitVec.ofNat 64 i } (fun t => t.reply) =
      some (some (.word 0)) := by decide +kernel

/-- HostWriteIbufWritesOneByte, HostReadIbufReturnsTheByte: the last byte of `IBUF`, and the first beyond it. -/
theorem witness_HostIbuf :
    335 < State.reset.params.ibufCap ∧ State.reset.params.ibufCap ≤ 336 ∧
    afterMove (.writeIbuf 335 0x55) State.reset (fun t => (ibufByte t 335, statusWord t.status)) = some (0x55, 0) ∧
    afterMove (.writeIbuf 336 0x55) State.reset (fun t => (t.ibuf, statusWord t.status)) = some ([], 0x0200) ∧
    afterMove (.writeIbuf 0 0x55) haltedState (fun t => t) = some haltedState := by decide +kernel

/-- HostReadObufIsBoundedByTheWindow, WindowShowsOnlyWrittenBytes: both ends of a window of 8. -/
theorem witness_HostReadObuf :
    Inv readOut ∧ window readOut = 8 ∧
    afterMove (.readObuf 7) readOut (fun t => (t.reply, statusWord t.status)) = some (some (.byte 0), 0) ∧
    afterMove (.readObuf 8) readOut (fun t => (t.reply, statusWord t.status)) = some (some (.byte 0), 0x0200) ∧
    window { readOut with olen := 176 } = 168 := by
  exact ⟨inv_readOut, by decide, by decide +kernel, by decide +kernel, by decide⟩

/-- HaltedEngineIsInert, OnlyResetClearsTheFault. -/
theorem witness_HaltedEngineIsInert : Inv haltedState ∧ haltedState.status.err = some .index :=
  ⟨inv_haltedState, rfl⟩

theorem witness_BusyEngineAnswersOnlyStatus :
    ({ State.reset with status := ⟨true, false, none⟩ } : State).status.busy = true ∧
    ({ State.reset with status := ⟨true, false, none⟩ } : State).status.done = false ∧
    issue (.readReg 0) { State.reset with status := ⟨true, false, none⟩ } = .refused .hostMoveWhileBusy ∧
    afterMove (.readReg 1) { State.reset with status := ⟨true, false, none⟩ } (fun t => t.reply) =
      some (some (.word 1)) := ⟨rfl, rfl, rfl, by decide +kernel⟩

/-- FaultEntryIsPrecise: a faulting write, a faulting read, a faulting command. -/
theorem witness_FaultEntryIsPrecise :
    State.reset.status.busy = false ∧ State.reset.status.err = none ∧
    afterMove (.writeIbuf 336 0) State.reset (fun t => t.status.err) = some (some .index) ∧
    afterMove (.readIbuf 336) State.reset (fun t => t.status.err) = some (some .index) ∧
    afterMove (.writeReg 0 0x2200) State.reset (fun t => t.status.err) = some (some .index) := by decide +kernel

/-- EveryStepKeepsTheInvariant: a step that changes the state. -/
theorem witness_EveryStepKeepsTheInvariant :
    Inv { State.reset with inbox := [.writeReg 0 0x1300] } ∧
    ∃ t, step { State.reset with inbox := [.writeReg 0 0x1300] } = .next t ∧ t.a[0] = 1 :=
  ⟨{ witness_inv_reset with }, _, rfl, by decide⟩

/-- PaddedInputIsSpecified: one written byte as the message. -/
theorem witness_PaddedInputIsSpecified :
    let s : State := { State.reset with ilen := 1, ibuf := [(0, 0xA3)] }
    s.params.wf ∧ s.status.err = none ∧ s.ilen.toNat < s.params.ibufCap ∧
    (∀ a, a < s.ilen.toNat → (s.ibuf.lookup a).isSome = true) ∧ ∃ t, exec .pad s = .next t := by
  exact ⟨by decide, rfl, by decide, by decide, _, exec_pad rfl (by decide)⟩

/-- OnlyHashSetsDone: `HASH` with `OLEN = 0` sets it, and a write of `ILEN` after that keeps it (T24, R34). -/
theorem witness_OnlyHashSetsDone :
    afterMove (.writeReg 2 5) { State.reset with status := ⟨false, true, none⟩ } (fun t => t.status.done) =
      some true ∧
    statusAfter 0x1300 { State.reset with status := ⟨false, true, none⟩ } = some 0 ∧
    ∃ t, issue (.writeReg 0 0x2F00) State.reset = .next t ∧ t.status.done = true := by
  obtain ⟨_, _, -, -, h⟩ := exec_hash (s := State.reset) rfl (by decide) (by decide) (by decide)
  exact ⟨by decide +kernel, by decide +kernel, _, h, rfl⟩

/-- NoCommandWritesTheHostsInputs, CommandFrames, BlkBoundIsKeptExceptByPad (a `PAD` at a length not below `PLEN`). -/
theorem witness_CommandFrames :
    (∃ t, exec .theta readOut = .next t) ∧ (∃ t, exec .pad readOut = .next t) ∧
    168 * readOut.blk.toNat ≤ readOut.plen.toNat ∧ readOut.params.wf ∧
    readOut.plen.toNat ≤ 168 * (readOut.ilen.toNat / 168 + 1) :=
  ⟨⟨_, exec_theta rfl⟩, ⟨_, exec_pad rfl (by decide)⟩, by decide, by decide, by decide⟩

/-- ThetaIsLinear: two states and their XOR. -/
theorem witness_ThetaIsLinear :
    let s1 := withLanes fun i => if i = 0 then 1 else 0
    let s2 := withLanes fun i => if i = 6 then 3 else 0
    let s3 := withLanes fun i => if i = 0 then 1 else if i = 6 then 3 else 0
    (∀ x y, laneAt s3.a x y = laneAt s1.a x y ^^^ laneAt s2.a x y) ∧
    (∃ t, exec .theta s1 = .next t) ∧ (∃ t, exec .theta s2 = .next t) ∧ ∃ t, exec .theta s3 = .next t := by
  exact ⟨by decide +kernel, ⟨_, exec_theta rfl⟩, ⟨_, exec_theta rfl⟩, _, exec_theta rfl⟩

/-- RhoPiResult, PiMapTable. -/
theorem witness_PiMapTable : State.reset.status.err = none ∧ ∃ t, exec .rhopi State.reset = .next t :=
  ⟨rfl, _, exec_rhopi rfl⟩

/-- IotaResult, RoundIsTheFourSteps: both ends of the legal range. -/
theorem witness_round_index :
    (0 : BitVec 5).toNat < 24 ∧ (23 : BitVec 5).toNat < 24 ∧ (∀ x y, laneAt State.reset.a x y = 0) ∧
    (∃ t, exec (.round 23) State.reset = .next t ∧ laneAt t.a 0 0 = rc 23) := by
  exact ⟨by decide, by decide, by decide, _, exec_round rfl (by decide), by decide +kernel⟩

/-- LaneOperatorsAreAsDefined: the ends of the rotation's range. -/
theorem witness_rotation :
    rotl64 0x8000000000000001 1 = 3 ∧ rotl64 0x8000000000000001 63 = 0xC000000000000000 ∧
    rotl64 0x8000000000000001 0 = 0x8000000000000001 := by decide

/-- PadResult, HashStateAtCompletion: message lengths at each boundary of the padding (T12). -/
theorem witness_PadResult :
    afterCmd 0x2100 State.reset (fun t => (t.plen, ibufByte t 0, ibufByte t 1, ibufByte t 166, ibufByte t 167)) =
      some (168, 0x1F, 0, 0, 0x80) ∧
    afterCmd 0x2100 { State.reset with ilen := 167 } (fun t => (t.plen, ibufByte t 167)) = some (168, 0x9F) ∧
    afterCmd 0x2100 { State.reset with ilen := 168 } (fun t => (t.plen, ibufByte t 168, ibufByte t 335)) =
      some (336, 0x1F, 0x80) ∧
    ∃ t, exec .pad State.reset = .next t := by
  exact ⟨by decide +kernel, by decide +kernel, by decide +kernel, _, exec_pad rfl (by decide)⟩

/-- XorbResult, AbsorbResult, ExtbResult, SqueezeResult, TheRateIsAByteString: both sides of each check. -/
theorem witness_blocks :
    168 * (({ State.reset with plen := 168 } : State).blk.toNat + 1) ≤
      ({ State.reset with plen := 168 } : State).plen.toNat ∧
    ({ State.reset with plen := 168, blk := 1 } : State).plen.toNat <
      168 * (({ State.reset with plen := 168, blk := 1 } : State).blk.toNat + 1) ∧
    readOut.ocnt.toNat + 21 ≤ readOut.params.obufCapW ∧
    ({ State.reset with ocnt := 42 } : State).params.obufCapW <
      ({ State.reset with ocnt := 42 } : State).ocnt.toNat + 21 := by decide

/-- HashStateAtCompletion, CompositesEqualTheirSequences, HashComputesShake128: the largest message and output the
instance of the vectors admits (T25), and the first of each that it does not. -/
theorem witness_HashComputesShake128 :
    let s : State := { State.reset with ilen := 335, olen := 336, plen := 168 }
    s.params.wf ∧ s.status.err = none ∧ s.ilen.toNat < s.params.ibufCap ∧
    21 * ((((s.olen.toNat + 7) / 8) + 20) / 21) ≤ s.params.obufCapW ∧
    168 * (s.blk.toNat + 1) ≤ s.plen.toNat ∧ s.ocnt.toNat + 21 ≤ s.params.obufCapW ∧
    s.params.ibufCap ≤ (336 : Word).toNat ∧
    s.params.obufCapW < 21 * (((((337 : Word).toNat + 7) / 8) + 20) / 21) := by decide

/-- ResultIsReadBack: the machine right after reset, with `OLEN = 16`. -/
theorem witness_ResultIsReadBack :
    let s : State := { State.reset with olen := 16 }
    Inv s ∧ s.status.err = none ∧ ∃ t, issue (.writeReg 0 0x2F00) s = .next t ∧
      issue (.readReg 1) t = .next { t with reply := some (.word 2) } := by
  obtain ⟨_, _, -, -, h⟩ := exec_hash (s := { State.reset with olen := 16 }) rfl (by decide) (by decide) (by decide)
  have key : ∀ t : State, t.status = ⟨false, true, none⟩ →
      issue (.readReg 1) t = .next { t with reply := some (.word 2) } := by
    intro t ht
    rw [issue_eq_hostMove, hostMove_idle (by show t.status.busy = false; rw [ht])]
    simp only [readReg, if_true, ht]
    rfl
  exact ⟨{ witness_inv_reset with }, rfl, _, h, key _ rfl⟩

/-- HashEndsWithAResultOrAFault: the reset state, and a state whose `HASH` faults. -/
theorem witness_HashEndsWithAResultOrAFault :
    Inv State.reset ∧ State.reset.status.err = none ∧ Inv { State.reset with ilen := 336 } ∧
    statusAfter 0x2F00 { State.reset with ilen := 336 } = some 0x0300 :=
  ⟨witness_inv_reset, rfl, { witness_inv_reset with }, by decide +kernel⟩

/-- HostProtocolReturnsShake128: "abc", 32 bytes (S6), and the largest output. -/
theorem witness_HostProtocolReturnsShake128 :
    Inv readOut ∧ readOut.status.err = none ∧ [0x61#8, 0x62, 0x63].length < readOut.params.ibufCap ∧
    21 * (((((32 : Word).toNat + 7) / 8) + 20) / 21) ≤ readOut.params.obufCapW ∧
    21 * (((((336 : Word).toNat + 7) / 8) + 20) / 21) ≤ readOut.params.obufCapW :=
  ⟨inv_readOut, rfl, by decide, by decide, by decide⟩

/-- WindowFollowsOlen, HashIsIndependentOfHistory: two states with the same message and other contents (T27). -/
theorem witness_HashIsIndependentOfHistory :
    let s1 : State := { State.reset with olen := 16, ibuf := [(0, 0x61), (1, 0x62)], ilen := 1 }
    let s2 : State := { readOut with olen := 16, ibuf := [(0, 0x61), (1, 0x99)], ilen := 1, blk := 7 }
    Inv s1 ∧ Inv s2 ∧ (∀ k, k < s1.ilen.toNat → ibufByte s1 k = ibufByte s2 k) ∧
    (∃ t1 : State, exec .hash s1 = .next t1 ∧ t1.status.err = none ∧ (168 : Word).toNat ≤ 8 * t1.ocnt.toNat) ∧
    ∃ t2 : State, exec .hash s2 = .next t2 ∧ t2.status.err = none := by
  refine ⟨{ witness_inv_reset with ibufSorted := by decide, ibufInside := by decide },
    { inv_readOut with ibufSorted := by decide, ibufInside := by decide }, by decide, ?_, ?_⟩
  · obtain ⟨_, o, -, h2, h⟩ := exec_hash
      (s := { State.reset with olen := 16, ibuf := [(0, 0x61), (1, 0x62)], ilen := 1 })
      rfl (by decide) (by decide) (by decide)
    refine ⟨_, h, rfl, ?_⟩
    show 168 ≤ 8 * o.toNat
    rw [h2]; decide
  · obtain ⟨_, _, -, -, h⟩ := exec_hash
      (s := { readOut with olen := 16, ibuf := [(0, 0x61), (1, 0x99)], ilen := 1, blk := 7 })
      rfl (by decide) (by decide) (by decide)
    exact ⟨_, h, rfl⟩

end Sys2Proof.Tests
end

section
/-! PROOF. The lane operators of R9: `rotl64` as an arithmetic formula and as a map of bits. -/

namespace Sys2Proof.Machine

@[simp] theorem rotl64_zero (a : Word) : rotl64 a 0 = a :=
  BitVec.eq_of_getLsbD_eq fun i hi => by simp [rotl64, hi]

/-- The bits of `a` below `64 - n` move up by `n`, the `n` bits above them become the lowest (R9). The two parts
share no bit, so their bitwise or is their sum. -/
theorem rotl64_toNat (a : Word) {n : Nat} (hn : n < 64) :
    (rotl64 a n).toNat = a.toNat * 2 ^ n % 2 ^ 64 + a.toNat / 2 ^ (64 - n) := by
  have hpow : 2 ^ (64 - n) * 2 ^ n = 2 ^ 64 := by rw [← Nat.pow_add, Nat.sub_add_cancel hn.le]
  have hlow : a.toNat / 2 ^ (64 - n) < 2 ^ n := Nat.div_lt_of_lt_mul (hpow ▸ a.isLt)
  have hhigh : a.toNat * 2 ^ n % 2 ^ 64 = (a.toNat % 2 ^ (64 - n)) <<< n := by
    rw [← hpow, Nat.mul_mod_mul_right, Nat.shiftLeft_eq]
  rw [rotl64, BitVec.toNat_rotateLeft, Nat.mod_eq_of_lt hn, Nat.shiftLeft_eq, Nat.shiftRight_eq_div_pow, hhigh,
    Nat.shiftLeft_add_eq_or_of_lt hlow]

/-- Bit `k` of a lane becomes bit `(k + n) mod 64` of its rotation by `n` (R9). -/
theorem getLsbD_rotl64 (a : Word) {n k : Nat} (hn : n < 64) (hk : k < 64) :
    (rotl64 a n).getLsbD ((k + n) % 64) = a.getLsbD k := by
  rw [rotl64, BitVec.getLsbD_rotateLeft_of_le hn]
  by_cases hwrap : k + n < 64
  · rw [Nat.mod_eq_of_lt hwrap]
    simp [hwrap]
  · have hpos : (k + n) % 64 = k + n - 64 := by omega
    have hsrc : 64 - n + (k + n - 64) = k := by omega
    have hlt : k + n - 64 < n := by omega
    simp [hpos, hsrc, hlt]

/-- Settles O28: the operators on bits are the library's, and `rotl64` is given by its formula and its map of bits. -/
theorem laneOperatorsAreAsDefined : Obligations.LaneOperatorsAreAsDefined := by
  intro a b
  exact ⟨fun _ => BitVec.getLsbD_xor, fun _ => BitVec.getLsbD_and, BitVec.toNat_not,
    fun _ _ hn => rotl64_toNat a (Nat.lt_succ_of_le hn), rotl64_zero a,
    fun _ _ hn hk => getLsbD_rotl64 a (Nat.lt_succ_of_le hn) hk⟩

end Sys2Proof.Machine
end

section
/-! PROOF. Little-endian words and bytes (R11, R64): byte `k` of `le64 bs` is `bs[k]`, and a word is determined by its
eight bytes; each of `le64` and `bytesOfWord` is the inverse of the other by these two facts. -/

namespace Sys2Proof.Machine

theorem byteOf_toNat (v : Word) (k : Nat) : (byteOf v k).toNat = v.toNat / 2 ^ (8 * k) % 256 := by
  rw [byteOf, BitVec.extractLsb'_toNat, Nat.shiftRight_eq_div_pow]

theorem leNat_lt : ∀ bs : List Byte, leNat bs < 2 ^ (8 * bs.length)
  | [] => by simp [leNat]
  | b :: bs => by
    have ih := leNat_lt bs
    have hb := b.isLt
    rw [leNat, List.length_cons, Nat.mul_succ, Nat.pow_add]
    omega

/-- Digit `k` of `leNat bs` in base 256 is byte `k` of the list. -/
theorem leNat_div_mod : ∀ (bs : List Byte) (k : Nat) (hk : k < bs.length),
    leNat bs / 2 ^ (8 * k) % 256 = bs[k].toNat
  | b :: bs, 0, _ => by
    have hb := b.isLt
    simp only [leNat, List.getElem_cons_zero]
    omega
  | b :: bs, k + 1, hk => by
    have hb := b.isLt
    have hshift : leNat (b :: bs) / 2 ^ 8 = leNat bs := by rw [leNat]; omega
    rw [Nat.mul_succ, Nat.add_comm, Nat.pow_add, ← Nat.div_div_eq_div_mul, hshift, List.getElem_cons_succ]
    exact leNat_div_mod bs k (Nat.lt_of_succ_lt_succ hk)

/-- Eight bytes fit in a word: `le64` drops nothing of them. -/
theorem le64_toNat {bs : List Byte} (h : bs.length ≤ 8) : (le64 bs).toNat = leNat bs := by
  have hlt : leNat bs < 2 ^ 64 :=
    (leNat_lt bs).trans_le (Nat.pow_le_pow_right (by decide) (Nat.mul_le_mul_left 8 h))
  rw [le64, BitVec.toNat_ofNat, Nat.mod_eq_of_lt hlt]

theorem byteOf_le64 {bs : List Byte} (h : bs.length ≤ 8) (k : Nat) (hk : k < bs.length) :
    byteOf (le64 bs) k = bs[k] := by
  apply BitVec.eq_of_toNat_eq
  rw [byteOf_toNat, le64_toNat h, leNat_div_mod bs k hk]

@[simp] theorem getElem_bytesOfWord (v : Word) (k : Nat) (hk : k < (bytesOfWord v).length) :
    (bytesOfWord v)[k] = byteOf v k := by
  simp [bytesOfWord]

/-- Bit `i` of a word is bit `i mod 8` of its byte `i div 8`. -/
theorem getLsbD_byteOf (v : Word) (i : Nat) : (byteOf v (i / 8)).getLsbD (i % 8) = v.getLsbD i := by
  rw [byteOf, BitVec.getLsbD_extractLsb', Nat.div_add_mod]
  simp [Nat.mod_lt]

/-- Words that agree in their eight bytes are equal. -/
theorem eq_of_byteOf_eq {v w : Word} (h : ∀ k, k < 8 → byteOf v k = byteOf w k) : v = w := by
  apply BitVec.eq_of_getLsbD_eq
  intro i hi
  rw [← getLsbD_byteOf v, ← getLsbD_byteOf w, h (i / 8) (by omega)]

theorem bytesOfWord_le64 {bs : List Byte} (h : bs.length = 8) : bytesOfWord (le64 bs) = bs := by
  apply List.ext_getElem
  · rw [length_bytesOfWord, h]
  · intro k _ hk
    rw [getElem_bytesOfWord, byteOf_le64 h.le k hk]

@[simp] theorem le64_bytesOfWord (v : Word) : le64 (bytesOfWord v) = v := by
  apply eq_of_byteOf_eq
  intro k hk
  rw [byteOf_le64 (by simp) k (by simpa using hk), getElem_bytesOfWord]

/-- Settles O31: `BYTE` by its formula, `LE64` by the sum `leNat` is on eight bytes, and the two inverse laws. -/
theorem littleEndianWordsAndBytes : Obligations.LittleEndianWordsAndBytes := by
  refine ⟨fun v k _ => byteOf_toNat v k, le64_bytesOfWord, fun b0 b1 b2 b3 b4 b5 b6 b7 => ⟨?_, bytesOfWord_le64 rfl⟩⟩
  rw [le64_toNat (by simp)]
  simp only [leNat]
  omega

end Sys2Proof.Machine
end

section
/-! PROOF. The host's register transactions (R71, R72), one equation per case. -/

namespace Sys2Proof.Machine

theorem halted_eq_true {s : State} (h : s.status.err ≠ none) : halted s = true := Option.isSome_iff_ne_none.2 h

/-! ### Writes -/

theorem issue_writeReg {s : State} (hb : s.status.busy = false) (n : Nat) (v : Word) :
    issue (.writeReg n v) s = hostWriteReg n v { s with reply := none } := by
  rw [issue_eq_hostMove, hostMove_idle (s := { s with reply := none }) hb]

/-- A halted engine ignores every write to a register (R76). -/
theorem issue_writeReg_halted {s : State} (hb : s.status.busy = false) (he : s.status.err ≠ none) (n : Nat)
    (v : Word) : issue (.writeReg n v) s = .next { s with reply := none } := by
  rw [issue_writeReg hb]
  exact if_pos (halted_eq_true he)

/-- A legal value written to `CMD` is performed (R110). -/
theorem issue_command {s : State} (hb : s.status.busy = false) (he : s.status.err = none) {v : Word} {i : Instr}
    (hd : decodeCmd v = .ok i) : issue (.writeReg 0 v) s = exec i { s with reply := none } := by
  simp [issue_writeReg hb, hostWriteReg, halted, he, hd]

theorem issue_illegal_command {s : State} (hb : s.status.busy = false) (he : s.status.err = none) {v : Word}
    (hd : ∀ i, decodeCmd v ≠ .ok i) :
    issue (.writeReg 0 v) s = .next { s with reply := none, status := ⟨false, false, some .illegalCmd⟩ } := by
  cases hv : decodeCmd v with
  | ok i => exact absurd hv (hd i)
  | error r => simp [issue_writeReg hb, hostWriteReg, halted, he, hv, raiseFault, faultStatus]

theorem issue_writeReg_register {s : State} (hb : s.status.busy = false) (he : s.status.err = none) {n : Nat}
    (hn : n ≠ 0) (v : Word) : issue (.writeReg n v) s = .next (writeReg { s with reply := none } n v) := by
  simp [issue_writeReg hb, hostWriteReg, halted, he, hn]

theorem writeReg_ilen (s : State) (v : Word) : writeReg s 2 v = { s with ilen := v } := rfl

theorem writeReg_olen (s : State) (v : Word) : writeReg s 3 v = { s with olen := v } := rfl

theorem writeReg_lane (s : State) (i : Fin 25) (v : Word) :
    writeReg s (32 + i.val) v = { s with a := s.a.set i.val v } := by
  rw [writeReg, if_neg (by omega), if_neg (by omega), dif_pos (by omega)]
  simp only [Nat.add_sub_cancel_left]

/-- A register the host cannot write, or no register at all (R37). -/
theorem writeReg_other (s : State) {n : Nat} (h2 : n ≠ 2) (h3 : n ≠ 3) (hlane : n < 32 ∨ 57 ≤ n) (v : Word) :
    writeReg s n v = s := by
  rw [writeReg, if_neg h2, if_neg h3, dif_neg (by omega)]

theorem getElem_set_lane (l : Lanes) (i j : Fin 25) (v : Word) : (l.set i.val v)[j] = if j = i then v else l[j] := by
  simp only [Fin.getElem_fin, Vector.getElem_set, Fin.ext_iff, eq_comm]

/-- Settles O8: a halted engine, then `CMD`, then each register by its number. -/
theorem hostWriteRegWritesOnlyItsRegister : Obligations.HostWriteRegWritesOnlyItsRegister := by
  intro s n v hb
  refine ⟨fun he => issue_writeReg_halted hb he n v, fun he => ⟨?cmd, ?ilen, ?olen, ?lane, ?other⟩⟩
  case cmd => rintro rfl; exact ⟨fun i hd => issue_command hb he hd, issue_illegal_command hb he⟩
  case ilen => rintro rfl; rw [issue_writeReg_register hb he (by decide), writeReg_ilen]
  case olen => rintro rfl; rw [issue_writeReg_register hb he (by decide), writeReg_olen]
  case lane =>
    rintro i rfl
    rw [issue_writeReg_register hb he (by omega), writeReg_lane]
    exact ⟨_, rfl, fun j => getElem_set_lane s.a i j v, rfl⟩
  case other =>
    intro h0 h2 h3 hlane
    rw [issue_writeReg_register hb he h0, writeReg_other _ h2 h3 hlane]

/-! ### Reads -/

theorem issue_readReg {s : State} (hb : s.status.busy = false) (n : Nat) :
    issue (.readReg n) s = .next { s with reply := some (.word (readReg s n)) } := by
  rw [issue_eq_hostMove, hostMove_idle (s := { s with reply := none }) hb]
  rfl

/-- From number 7 on, the registers are the two banks of lanes and the reserved numbers (R36). -/
theorem readReg_of_seven_le (s : State) {n : Nat} (hn : 7 ≤ n) :
    readReg s n =
      if h : 32 ≤ n ∧ n - 32 < 25 then s.a[n - 32] else if h : 64 ≤ n ∧ n - 64 < 25 then s.b[n - 64] else 0 := by
  rw [readReg]
  iterate 6 rw [if_neg (by omega)]

theorem readReg_lane (s : State) (i : Fin 25) : readReg s (32 + i.val) = s.a[i] := by
  rw [readReg_of_seven_le s (by omega), dif_pos (by omega)]
  simp only [Nat.add_sub_cancel_left, Fin.getElem_fin]

theorem readReg_blane (s : State) (i : Fin 25) : readReg s (64 + i.val) = s.b[i] := by
  rw [readReg_of_seven_le s (by omega), dif_neg (by omega), dif_pos (by omega)]
  simp only [Nat.add_sub_cancel_left, Fin.getElem_fin]

/-- The reserved register numbers read as 0 (R37). -/
theorem readReg_reserved (s : State) {n : Nat} (h : (7 ≤ n ∧ n < 32) ∨ (57 ≤ n ∧ n < 64) ∨ 89 ≤ n) :
    readReg s n = 0 := by
  rw [readReg_of_seven_le s (by omega), dif_neg (by omega), dif_neg (by omega)]

/-- Settles O9: the named registers are read off by their numbers, the lanes and the reserved numbers by their
ranges. -/
theorem hostReadRegReturnsTheRegister : Obligations.HostReadRegReturnsTheRegister := by
  intro s n hb
  refine ⟨readReg s n, issue_readReg hb n, ?_, ?_, ?_, ?_, ?_, ?_, ?_, ?lane, ?blane, readReg_reserved s⟩
  case lane => rintro i rfl; exact readReg_lane s i
  case blane => rintro i rfl; exact readReg_blane s i
  all_goals rintro rfl; rfl

end Sys2Proof.Machine
end

section
/-! PROOF. The host's buffer transactions (R73 to R75) and the halted state (R76, R207), one equation per case. -/

namespace Sys2Proof.Machine

theorem outOfRange_ready {s : State} (he : s.status.err = none) :
    outOfRange s = { s with status := ⟨false, false, some .index⟩ } := by
  rw [outOfRange, if_neg (by simp [halted, he])]
  rfl

/-- A halted engine records no second fault (R76). -/
theorem outOfRange_halted {s : State} (he : s.status.err ≠ none) : outOfRange s = s := by
  rw [outOfRange, if_pos (halted_eq_true he)]

/-- The value returned before plays no part in an access out of range. -/
theorem outOfRange_reply (s : State) (r : Option Reply) :
    outOfRange { s with reply := r } = { outOfRange s with reply := r } := by
  by_cases he : s.status.err = none
  · rw [outOfRange_ready he, outOfRange_ready (s := { s with reply := r }) he]
  · rw [outOfRange_halted he, outOfRange_halted (s := { s with reply := r }) he]

/-! ### `IBUF` -/

/-- A halted engine ignores every write to `IBUF` (R76). -/
theorem issue_writeIbuf_halted {s : State} (hb : s.status.busy = false) (he : s.status.err ≠ none) (a : Nat)
    (b : Byte) : issue (.writeIbuf a b) s = .next { s with reply := none } := by
  rw [issue_eq_hostMove, hostMove_idle (s := { s with reply := none }) hb]
  exact congrArg _ (if_pos (halted_eq_true he))

theorem issue_readIbuf_inside {s : State} (hb : s.status.busy = false) {a : Nat} (h : a < s.params.ibufCap) :
    issue (.readIbuf a) s = .next { s with reply := some (.byte (ibufByte s a)) } := by
  rw [issue_eq_hostMove, hostMove_idle (s := { s with reply := none }) hb]
  simp only [hostReadIbuf, if_neg (Nat.not_le.2 h)]
  rfl

theorem issue_readIbuf_outside {s : State} (hb : s.status.busy = false) {a : Nat} (h : s.params.ibufCap ≤ a) :
    issue (.readIbuf a) s = .next { outOfRange s with reply := some (.byte 0) } := by
  rw [issue_eq_hostMove, hostMove_idle (s := { s with reply := none }) hb]
  simp only [hostReadIbuf, if_pos h, outOfRange_reply]

/-- Settles O12: the byte in range; out of range 0, with the fault unless halted. -/
theorem hostReadIbufReturnsTheByte : Obligations.HostReadIbufReturnsTheByte := by
  intro s a hb
  refine ⟨issue_readIbuf_inside hb, fun h he => ?ready, fun h he => ?halted⟩
  case ready => rw [issue_readIbuf_outside hb h, outOfRange_ready he]
  case halted => rw [issue_readIbuf_outside hb h, outOfRange_halted he]

/-! ### `OBUF` -/

theorem issue_readObuf_inside {s : State} (hb : s.status.busy = false) {a : Nat} (h : a < window s) :
    issue (.readObuf a) s = .next { s with reply := some (.byte (obufByte s a)) } := by
  rw [issue_eq_hostMove, hostMove_idle (s := { s with reply := none }) hb]
  have hwin : ¬ window { s with reply := none } ≤ a := Nat.not_le.2 h
  simp only [hostReadObuf, if_neg hwin]
  rfl

theorem issue_readObuf_outside {s : State} (hb : s.status.busy = false) {a : Nat} (h : window s ≤ a) :
    issue (.readObuf a) s = .next { outOfRange s with reply := some (.byte 0) } := by
  rw [issue_eq_hostMove, hostMove_idle (s := { s with reply := none }) hb]
  have hwin : window { s with reply := none } ≤ a := h
  simp only [hostReadObuf, if_pos hwin, outOfRange_reply]

/-- Settles O13: the byte inside the window; outside it 0, with the fault unless halted. -/
theorem hostReadObufIsBoundedByTheWindow : Obligations.HostReadObufIsBoundedByTheWindow := by
  intro s a hb
  refine ⟨issue_readObuf_inside hb, fun h he => ?ready, fun h he => ?halted⟩
  case ready => rw [issue_readObuf_outside hb h, outOfRange_ready he]
  case halted => rw [issue_readObuf_outside hb h, outOfRange_halted he]

/-! ### The halted state -/

/-- Settles O14: `DONE = 0` is the invariant's; a write does nothing, and a read out of range records no second
fault. -/
theorem haltedEngineIsInert : Obligations.HaltedEngineIsInert := by
  intro s c hinv hc
  have hb := hinv.idle
  have he : s.status.err ≠ none := by simp [hc]
  refine ⟨hinv.haltedDone (halted_eq_true he), issue_writeReg_halted hb he, issue_writeIbuf_halted hb he,
    issue_readReg hb, fun a => ?readIbuf, fun a => ?readObuf⟩
  case readIbuf =>
    split
    · exact issue_readIbuf_inside hb ‹_›
    · rw [issue_readIbuf_outside hb (Nat.not_lt.1 ‹_›), outOfRange_halted he]
  case readObuf =>
    split
    · exact issue_readObuf_inside hb ‹_›
    · rw [issue_readObuf_outside hb (Nat.not_lt.1 ‹_›), outOfRange_halted he]

end Sys2Proof.Machine
end

section
/-! PROOF. The rate as a byte string (R65): `XORB` and `EXTB` byte for byte. -/

namespace Sys2Proof.Machine

/-- `S[q]`: byte `q` of the rate, `BYTE(LANE[q div 8], q mod 8)` (R65). -/
def rateByte (l : Lanes) (q : Nat) : Byte := byteOf (laneOfWord l (q / 8)) (q % 8)

theorem byteOf_xor (v w : Word) (k : Nat) : byteOf (v ^^^ w) k = byteOf v k ^^^ byteOf w k :=
  BitVec.extractLsb'_xor

theorem laneOfWord_xorRate (l : Lanes) (w : Nat → Word) {j : Nat} (hj : j < 21) :
    laneOfWord (xorRate l w) j = laneOfWord l j ^^^ w j := by
  have hlane : j < 25 := by omega
  have hx := getElem_xorRate l w ⟨j, hlane⟩
  rw [if_pos hj, ← laneOfWord_eq, ← laneOfWord_eq] at hx
  exact hx

/-- The bytes of the words of a block are the bytes of `IBUF` (R64). -/
theorem byteOf_blockWord (s : State) (k q : Nat) :
    byteOf (blockWord s k (q / 8)) (q % 8) = ibufByte s (168 * k + q) := by
  rw [blockWord, ibufWord, byteOf_le64 (by simp) (q % 8) (by simp [Nat.mod_lt]), List.getElem_map,
    List.getElem_range, Nat.add_assoc, Nat.div_add_mod]

theorem rateByte_xorRate (s : State) (l : Lanes) (k : Nat) {q : Nat} (hq : q < 168) :
    rateByte (xorRate l (blockWord s k)) q = rateByte l q ^^^ ibufByte s (168 * k + q) := by
  rw [rateByte, laneOfWord_xorRate _ _ (by omega), byteOf_xor, byteOf_blockWord, rateByte]

theorem getElem?_rateBytesOf (l : Lanes) {q : Nat} (hq : q < 168) : (rateBytesOf l)[q]? = some (rateByte l q) := by
  have h := getElem?_flatMap_bytes (laneOfWord l) 21 (q / 8) (q % 8) (by omega) (Nat.mod_lt _ (by decide))
  rwa [Nat.div_add_mod] at h

/-- Settles O44: what `XORB` and `EXTB` do to the words is done to every byte. -/
theorem theRateIsAByteString : Obligations.TheRateIsAByteString := by
  intro s _ he q hq
  refine ⟨fun h => ⟨_, exec_xorb he h, rateByte_xorRate s s.a s.blk.toNat hq⟩,
    fun h => ⟨_, exec_extb he h, ?_, rfl⟩⟩
  rw [obufByte, lookup_storeRate, if_pos (by omega), Nat.add_sub_cancel_left, getElem?_rateBytesOf _ hq]
  rfl

end Sys2Proof.Machine
end

section
/-! PROOF. Reading the result of a hash back (R78). -/

namespace Sys2Proof.Machine

/-- The read of `STATUS` has a meaning on every engine, busy or not (R77). -/
theorem issue_readReg_status (s : State) :
    issue (.readReg 1) s = .next { s with reply := some (.word (statusWord s.status)) } := by
  simp [issue_eq_hostMove, hostMove, allowedWhileBusy, readReg]

/-- When `STATUS` reads as 2, `DONE` alone is set (R34). -/
theorem statusWord_eq_done {st : Status} (h : statusWord st = 2) : st = ⟨false, true, none⟩ := by
  obtain ⟨busy, done, err⟩ := st
  revert h
  rcases err with - | (- | - | -) <;> cases busy <;> cases done <;> decide

/-- A `HASH` that ends without a fault: the bytes of `OBUF` below `OLEN` are those of SHAKE128 of the message, and
they stand in the window (R184, R186). -/
theorem exec_hash_result {s t : State} (hp : s.params.wf) (he : s.status.err = none) (h : exec .hash s = .next t)
    (ht : t.status.err = none) :
    window t = s.olen.toNat ∧
      ∀ k, (hk : k < (shake128 (message s) s.olen.toNat).length) →
        obufByte t k = (shake128 (message s) s.olen.toNat)[k] := by
  by_cases hfault : s.params.ibufCap ≤ s.ilen.toNat ∨ s.params.obufCapW < 21 * readoutsNeeded s.olen.toNat
  · rw [exec_hash_fault he hfault] at h
    cases h
    cases ht
  · obtain ⟨hi, ho⟩ := not_or.1 hfault
    obtain ⟨_, ocnt, -, hocnt, hx⟩ := exec_hash he hp (Nat.not_le.1 hi) (Nat.not_lt.1 ho)
    rw [hx] at h
    cases h
    have hns := readoutsNeeded_eq s.olen.toNat
    refine ⟨Nat.min_eq_left (by show s.olen.toNat ≤ 8 * ocnt.toNat; omega), fun k hk => ?_⟩
    have hk' : k < s.olen.toNat := by rwa [length_shake128_eq] at hk
    have hstream : k < (shakeStream (shakeStart (message s)) (readoutsNeeded s.olen.toNat)).length := by
      rw [length_shakeStream]; omega
    simp only [obufByte, Memory.lookup_storeBytes, hashAbsorbed_fst, shake128_eq_take _ hns.ge, List.getElem_take]
    simp [List.getElem?_eq_getElem hstream]

/-- Settles O51: `STATUS` reading as `DONE` says that the write was performed and did not fault, so `HASH` left its
result in the window. -/
theorem resultIsReadBack : Obligations.ResultIsReadBack := by
  intro s t hinv hcmd hstatus
  have hdone : t.status = ⟨false, true, none⟩ := by
    rw [issue_readReg_status] at hstatus
    exact statusWord_eq_done (by simpa using hstatus)
  have he : s.status.err = none := by
    by_contra hne
    rw [issue_writeReg_halted hinv.idle hne] at hcmd
    cases hcmd
    exact hne (by rw [hdone])
  rw [issue_command hinv.idle he (i := .hash) (by decide)] at hcmd
  obtain ⟨hwin, hbytes⟩ :=
    exec_hash_result (s := { s with reply := none }) hinv.capacities he hcmd (by rw [hdone])
  refine ⟨length_shake128_eq _ _, fun k hk => ?_⟩
  have hk' : k < window t := by rw [hwin]; rwa [length_shake128_eq] at hk
  rw [issue_readObuf_inside (by rw [hdone]) hk', hbytes k hk]
  rfl

end Sys2Proof.Machine
end

section
/-! PROOF. Which values written to `CMD` decode, and to which command (R100 to R104): by encoding, by fields, and by
the masks and matches of R103. -/

namespace Sys2Proof

/-! ### Decoding is the inverse of encoding on the well-formed commands -/

theorem decodeCmd_encodeCmd {i : Instr} (hw : WellFormed i = true) : decodeCmd (encodeCmd i) = .ok i := by
  cases i with
  | iota r => revert r; decide
  | round r => revert r; decide
  | _ => rfl

/-- A value without high bits is given by its opcode and its operand byte (R100, R101). -/
theorem eq_encodeCmd_of_fields {v : Word} {i : Instr} (hh : highField v = 0) (ho : opField v = opcode i)
    (ha : argField v = operandByte i) : v = encodeCmd i := by
  apply BitVec.eq_of_toNat_eq
  rw [toNat_of_highField hh, encodeCmd_toNat, ho, ha]

theorem decodeCmd_eq_ok_iff {v : Word} {i : Instr} :
    decodeCmd v = .ok i ↔ WellFormed i = true ∧ v = encodeCmd i := by
  constructor
  · intro h
    obtain ⟨hh, ho, ha, hw⟩ := decodeCmd_ok_fields h
    exact ⟨hw, eq_encodeCmd_of_fields hh ho ha⟩
  · rintro ⟨hw, rfl⟩
    exact decodeCmd_encodeCmd hw

theorem decodeCmd_eq_ok_iff_fields {v : Word} {i : Instr} :
    decodeCmd v = .ok i ↔ WellFormed i = true ∧ v.toNat / 2 ^ 16 = 0 ∧
      v.toNat / 2 ^ 8 % 2 ^ 8 = (opcode i).toNat ∧ v.toNat % 2 ^ 8 = (operandByte i).toNat := by
  constructor
  · intro h
    obtain ⟨hh, ho, ha, hw⟩ := decodeCmd_ok_fields h
    exact ⟨hw, by rw [← highField_toNat, hh]; rfl, by rw [← opField_toNat, ho], by rw [← argField_toNat, ha]⟩
  · rintro ⟨hw, hh, ho, ha⟩
    exact decodeCmd_eq_ok_iff.2 ⟨hw, eq_encodeCmd_of_fields (BitVec.eq_of_toNat_eq ((highField_toNat v).trans hh))
      (BitVec.eq_of_toNat_eq ((opField_toNat v).trans ho)) (BitVec.eq_of_toNat_eq ((argField_toNat v).trans ha))⟩

theorem roundIndexLegal_iff {r : BitVec 5} : roundIndexLegal r = true ↔ r.toNat < 24 := decide_eq_true_iff

theorem toNat_operandByte_iota (r : BitVec 5) : (operandByte (.iota r)).toNat = r.toNat :=
  BitVec.toNat_setWidth_of_le (by decide)

theorem toNat_operandByte_round (r : BitVec 5) : (operandByte (.round r)).toNat = r.toNat :=
  BitVec.toNat_setWidth_of_le (by decide)

/-! ### The rows of the opcode map by mask and match -/

/-- A command word written to `CMD` decodes to `i` exactly when it is the command word of `i`. -/
theorem decodeCmd_setWidth_eq_ok_iff {w : CmdWord} {i : Instr} :
    decodeCmd (w.setWidth 64) = .ok i ↔ WellFormed i = true ∧ w = encode i := by
  have hinj : w.setWidth 64 = encodeCmd i ↔ w = encode i :=
    ⟨fun h => by simpa [encodeCmd] using congrArg (BitVec.setWidth 16) h, fun h => by rw [h, encodeCmd]⟩
  rw [decodeCmd_eq_ok_iff, hinj]

/-- The mask of format `N` takes the whole word. -/
theorem decodeCmd_formatN_iff {w : CmdWord} {i : Instr} (hw : WellFormed i = true) :
    decodeCmd (w.setWidth 64) = .ok i ↔ w &&& 0xFFFF = encode i := by
  have hmask : w &&& 0xFFFF = w := BitVec.and_allOnes
  rw [decodeCmd_setWidth_eq_ok_iff, hmask, and_iff_right hw]

/-- The mask of format `R` leaves out the round field and nothing else. -/
theorem eq_of_masked_of_round {w w' : CmdWord} (hm : w &&& 0xFFE0 = w' &&& 0xFFE0)
    (hr : w.extractLsb' 0 5 = w'.extractLsb' 0 5) : w = w' := by
  have hlow : ∀ u : CmdWord, (u.extractLsb' 0 5).setWidth 16 = u &&& ~~~0xFFE0 := fun u => by
    apply BitVec.eq_of_toNat_eq
    rw [BitVec.toNat_and, BitVec.toNat_setWidth_of_le (by decide), BitVec.extractLsb'_toNat, Nat.shiftRight_zero]
    exact (Nat.and_two_pow_sub_one_eq_mod u.toNat 5).symm
  have hsplit : ∀ u : CmdWord, u = (u &&& 0xFFE0) ||| (u &&& ~~~0xFFE0) := fun u => by
    rw [← BitVec.and_or_distrib_left]
    exact BitVec.and_allOnes.symm
  rw [hsplit w, hsplit w', ← hlow, ← hlow, hm, hr]

/-- A row of format `R`, with its match `m`: the command is selected by mask and match and the range of the round
field, and its operand is that field. -/
theorem decodeCmd_formatR_iff {mk : BitVec 5 → Instr} {m w : CmdWord}
    (hwf : ∀ q, WellFormed (mk q) = roundIndexLegal q)
    (hmk : ∀ q, encode (mk q) &&& 0xFFE0 = m ∧ (encode (mk q)).extractLsb' 0 5 = q) (q : BitVec 5) :
    decodeCmd (w.setWidth 64) = .ok (mk q) ↔
      (w &&& 0xFFE0 = m ∧ (w.extractLsb' 0 5).toNat ≤ 23) ∧ q = w.extractLsb' 0 5 := by
  rw [decodeCmd_setWidth_eq_ok_iff, hwf, roundIndexLegal_iff]
  constructor
  · rintro ⟨hq, rfl⟩
    obtain ⟨hmask, hfield⟩ := hmk q
    rw [hfield]
    exact ⟨⟨hmask, Nat.le_of_lt_succ hq⟩, rfl⟩
  · rintro ⟨⟨hmask, hq⟩, rfl⟩
    obtain ⟨hmask', hfield⟩ := hmk (w.extractLsb' 0 5)
    exact ⟨Nat.lt_succ_of_le hq, eq_of_masked_of_round (hmask.trans hmask'.symm) hfield.symm⟩

theorem decodeCmd_iota_iff {w : CmdWord} (q : BitVec 5) :
    decodeCmd (w.setWidth 64) = .ok (.iota q) ↔
      (w &&& 0xFFE0 = 0x1300 ∧ (w.extractLsb' 0 5).toNat ≤ 23) ∧ q = w.extractLsb' 0 5 :=
  decodeCmd_formatR_iff (fun _ => rfl) (by decide) q

theorem decodeCmd_round_iff {w : CmdWord} (q : BitVec 5) :
    decodeCmd (w.setWidth 64) = .ok (.round q) ↔
      (w &&& 0xFFE0 = 0x1800 ∧ (w.extractLsb' 0 5).toNat ≤ 23) ∧ q = w.extractLsb' 0 5 :=
  decodeCmd_formatR_iff (fun _ => rfl) (by decide) q

/-! ### The legal values -/

/-- The legal round indices, 0 to 23 (R102). -/
def legalRounds : List (BitVec 5) := (List.range 24).map (BitVec.ofNat 5)

theorem mem_legalRounds {r : BitVec 5} : r ∈ legalRounds ↔ roundIndexLegal r = true := by
  revert r; decide

/-- The legal commands: the 11 of format `N`, and the two of format `R` with each legal round index (R103). -/
def legalCommands : List Instr :=
  ([.theta, .rhopi, .chi, .permute, .init, .pad, .xorb, .extb, .absorb, .squeeze, .hash] : List Instr) ++
    legalRounds.map Instr.iota ++ legalRounds.map Instr.round

theorem mem_legalCommands {i : Instr} : i ∈ legalCommands ↔ WellFormed i = true := by
  cases i <;> simp [legalCommands, WellFormed, mem_legalRounds]

theorem nodup_legalCommands : legalCommands.Nodup := by decide

theorem encodeCmd_injOn {i j : Instr} (hi : WellFormed i = true) (hj : WellFormed j = true)
    (h : encodeCmd i = encodeCmd j) : i = j := by
  have hd := decodeCmd_encodeCmd hi
  rw [h, decodeCmd_encodeCmd hj] at hd
  exact (Except.ok.inj hd).symm

/-- The values of the legal commands, one by one. -/
theorem mem_map_encodeCmd_legalCommands {v : Word} :
    v ∈ legalCommands.map encodeCmd ↔ ∃ i, decodeCmd v = .ok i := by
  simp only [List.mem_map, mem_legalCommands, decodeCmd_eq_ok_iff, eq_comm (a := v)]

theorem nodup_map_encodeCmd_legalCommands : (legalCommands.map encodeCmd).Nodup :=
  nodup_legalCommands.map_on fun _ hi _ hj => encodeCmd_injOn (mem_legalCommands.1 hi) (mem_legalCommands.1 hj)

/-- Settles O2: each row by its mask and match; then the legal values are those of the legal commands. -/
theorem opcodeMapSelectsByMaskAndMatch : Obligations.OpcodeMapSelectsByMaskAndMatch := by
  refine ⟨fun w => ⟨decodeCmd_formatN_iff rfl, decodeCmd_formatN_iff rfl, decodeCmd_formatN_iff rfl,
      ?iota, ?round, ?operand, decodeCmd_formatN_iff rfl, decodeCmd_formatN_iff rfl, decodeCmd_formatN_iff rfl,
      decodeCmd_formatN_iff rfl, decodeCmd_formatN_iff rfl, decodeCmd_formatN_iff rfl, decodeCmd_formatN_iff rfl,
      decodeCmd_formatN_iff rfl⟩,
    legalCommands.map encodeCmd, rfl, nodup_map_encodeCmd_legalCommands, fun v => mem_map_encodeCmd_legalCommands⟩
  case iota => simp only [decodeCmd_iota_iff, exists_and_left, exists_eq, and_true]
  case round => simp only [decodeCmd_round_iff, exists_and_left, exists_eq, and_true]
  case operand =>
    rintro q (h | h)
    · exact ((decodeCmd_iota_iff q).1 h).2
    · exact ((decodeCmd_round_iff q).1 h).2

/-! ### The five conditions of R104, as numbers -/

/-- The opcodes of format `N` (R103). -/
def FormatN (op : Nat) : Prop :=
  op = 0x10 ∨ op = 0x11 ∨ op = 0x12 ∨ op = 0x19 ∨ op = 0x20 ∨ op = 0x21 ∨ op = 0x22 ∨ op = 0x23 ∨ op = 0x28 ∨
    op = 0x29 ∨ op = 0x2F

/-- The opcodes of format `R` (R103). -/
def FormatR (op : Nat) : Prop := op = 0x13 ∨ op = 0x18

/-- The five items of R104, in its order. -/
def IllegalValue (v : Word) : Prop :=
  let op := v.toNat / 2 ^ 8 % 2 ^ 8
  v.toNat / 2 ^ 16 ≠ 0 ∨ ¬ (FormatN op ∨ FormatR op) ∨ (FormatN op ∧ v.toNat % 2 ^ 8 ≠ 0) ∨
    (FormatR op ∧ v.toNat / 2 ^ 5 % 2 ^ 3 ≠ 0) ∨
    (FormatR op ∧ v.toNat / 2 ^ 5 % 2 ^ 3 = 0 ∧ 24 ≤ v.toNat % 2 ^ 5)

theorem exists_command_of_formatN {op : Nat} (h : FormatN op) :
    ∃ i, WellFormed i = true ∧ (operandByte i).toNat = 0 ∧ (opcode i).toNat = op := by
  rcases h with rfl | rfl | rfl | rfl | rfl | rfl | rfl | rfl | rfl | rfl | rfl
  exacts [⟨.theta, rfl, rfl, rfl⟩, ⟨.rhopi, rfl, rfl, rfl⟩, ⟨.chi, rfl, rfl, rfl⟩, ⟨.permute, rfl, rfl, rfl⟩,
    ⟨.init, rfl, rfl, rfl⟩, ⟨.pad, rfl, rfl, rfl⟩, ⟨.xorb, rfl, rfl, rfl⟩, ⟨.extb, rfl, rfl, rfl⟩,
    ⟨.absorb, rfl, rfl, rfl⟩, ⟨.squeeze, rfl, rfl, rfl⟩, ⟨.hash, rfl, rfl, rfl⟩]

theorem exists_command_of_formatR {op : Nat} (h : FormatR op) {r : BitVec 5} (hr : r.toNat < 24) :
    ∃ i, WellFormed i = true ∧ (operandByte i).toNat = r.toNat ∧ (opcode i).toNat = op := by
  rcases h with rfl | rfl
  exacts [⟨.iota r, roundIndexLegal_iff.2 hr, toNat_operandByte_iota r, rfl⟩,
    ⟨.round r, roundIndexLegal_iff.2 hr, toNat_operandByte_round r, rfl⟩]

/-- Which of the two formats a command has, and what its operand byte then is. -/
theorem formatN_or_formatR {i : Instr} (hw : WellFormed i = true) :
    (FormatN (opcode i).toNat ∧ ¬ FormatR (opcode i).toNat ∧ (operandByte i).toNat = 0) ∨
      (FormatR (opcode i).toNat ∧ ¬ FormatN (opcode i).toNat ∧ (operandByte i).toNat < 24) := by
  cases i with
  | iota r => exact .inr ⟨.inl rfl, by simp [FormatN, opcode],
      (toNat_operandByte_iota r).trans_lt (roundIndexLegal_iff.1 hw)⟩
  | round r => exact .inr ⟨.inr rfl, by simp [FormatN, opcode],
      (toNat_operandByte_round r).trans_lt (roundIndexLegal_iff.1 hw)⟩
  | _ => exact .inl ⟨by simp [FormatN, opcode], by simp [FormatR, opcode], rfl⟩

theorem exists_decodeCmd_of_not_illegalValue {v : Word} (h : ¬ IllegalValue v) : ∃ i, decodeCmd v = .ok i := by
  simp only [IllegalValue, not_or, not_and, not_not] at h
  obtain ⟨hhigh, hop, hoperand, hreserved, hround⟩ := h
  by_cases hN : FormatN (v.toNat / 2 ^ 8 % 2 ^ 8)
  · obtain ⟨i, hw, h0, ho⟩ := exists_command_of_formatN hN
    exact ⟨i, decodeCmd_eq_ok_iff_fields.2 ⟨hw, hhigh, ho.symm, (hoperand hN).trans h0.symm⟩⟩
  · have hR := hop hN
    have hr := hround hR (hreserved hR)
    obtain ⟨i, hw, ha, ho⟩ :=
      exists_command_of_formatR hR (r := roundField v) (by rw [roundField_toNat]; exact Nat.not_le.1 hr)
    refine ⟨i, decodeCmd_eq_ok_iff_fields.2 ⟨hw, hhigh, ho.symm, ?_⟩⟩
    rw [ha, roundField_toNat]
    have := hreserved hR
    omega

theorem not_illegalValue_of_decodeCmd {v : Word} {i : Instr} (h : decodeCmd v = .ok i) : ¬ IllegalValue v := by
  obtain ⟨hw, hhigh, ho, ha⟩ := decodeCmd_eq_ok_iff_fields.1 h
  simp only [IllegalValue, ho]
  rcases formatN_or_formatR hw with ⟨hN, hR, h0⟩ | ⟨hR, hN, hr⟩
  · rintro (hv | hv | ⟨-, hv⟩ | ⟨hv, -⟩ | ⟨hv, -⟩)
    exacts [hv hhigh, hv (.inl hN), hv (ha.trans h0), hR hv, hR hv]
  · rintro (hv | hv | ⟨hv, -⟩ | ⟨-, hv⟩ | ⟨-, -, hv⟩)
    exacts [hv hhigh, hv (.inr hR), hN hv, hv (by omega), by omega]

/-- Settles O3: the five conditions hold exactly when the decoder rejects the value. -/
theorem illegalValuesFaultAndDoNothingElse : Obligations.IllegalValuesFaultAndDoNothingElse := fun _ =>
  ⟨exists_decodeCmd_of_not_illegalValue, fun _ hill hb he =>
    Machine.issue_illegal_command hb he fun _ hd => not_illegalValue_of_decodeCmd hd hill⟩

end Sys2Proof
end

section
/-! PROOF. The write of a value to `CMD` (R110). -/

namespace Sys2Proof.Machine

/-- What a legal command leaves on an engine that is not halted: without a fault, `DONE` as `HASH` sets it; with one,
the fault entered from the state before the command (R110, R206). -/
theorem exec_ready {s : State} (he : s.status.err = none) {i : Instr} (hw : WellFormed i = true) :
    ∃ t, exec i s = .next t ∧
      (t.status = ⟨false, i == .hash, none⟩ ∨
        ∃ c, (c = .capacity ∨ c = .index) ∧ t = { s with status := ⟨false, false, some c⟩ }) := by
  cases hrule : ruleOf i (accepted s) with
  | ok u =>
    obtain ⟨w, -, rfl⟩ := ruleOf_keeps hrule
    exact ⟨_, exec_of_rule_ok he hrule, .inl rfl⟩
  | error c => exact ⟨_, exec_of_rule_error he hrule, .inr ⟨c, ruleOf_code hw hrule, rfl⟩⟩

/-- Settles O6: an illegal value, a legal one with both ends of its command, and the halted engine. -/
theorem commandWriteProtocol : Obligations.CommandWriteProtocol := by
  intro s v hb
  refine ⟨fun he hd => issue_illegal_command hb he hd, fun he i hd => ?_,
    fun he => issue_writeReg_halted hb he 0 v⟩
  obtain ⟨t, hexec, hend⟩ := exec_ready (s := { s with reply := none }) he (decodeCmd_eq_ok_iff.1 hd).1
  refine ⟨t, (issue_command hb he hd).trans hexec, hexec, ?_⟩
  rcases hend with hst | ⟨c, hc, rfl⟩
  · simp [hst]
  · simpa using hc

end Sys2Proof.Machine
end

section
/-! PROOF. The composite commands and the sequences that define them (R109). -/

namespace Sys2Proof.Machine

theorem runCommands_cons {i : Instr} {s t : State} (h : exec i s = .next t) (is : List Instr) :
    runCommands (i :: is) s = runCommands is t := by rw [runCommands, h]

theorem exec_round_eq_steps {s : State} (he : s.status.err = none) {r : BitVec 5} (hr : r.toNat < 24) :
    exec (.round r) s = runCommands [.theta, .rhopi, .chi, .iota r] s := by
  rw [exec_round he hr, runCommands_cons (exec_theta he), runCommands_cons (exec_rhopi rfl),
    runCommands_cons (exec_chi rfl), runCommands_cons (exec_iota rfl hr)]
  rfl

theorem exec_absorb_eq_steps {s : State} (he : s.status.err = none) (h : 168 * (s.blk.toNat + 1) ≤ s.plen.toNat) :
    exec .absorb s = runCommands [.xorb, .permute] s := by
  rw [exec_absorb he h, runCommands_cons (exec_xorb he h), runCommands_cons (exec_permute rfl)]
  rfl

theorem exec_squeeze_eq_steps {s : State} (he : s.status.err = none) (h : s.ocnt.toNat + 21 ≤ s.params.obufCapW) :
    exec .squeeze s = runCommands [.extb, .permute] s := by
  rw [exec_squeeze he h, runCommands_cons (exec_extb he h), runCommands_cons (exec_permute rfl), runCommands]

/-- The 24 rounds as commands. -/
theorem runCommands_all_rounds {s : State} (hs : s.status = idleStatus) :
    runCommands ((List.range 24).map fun r => .round (BitVec.ofNat 5 r)) s =
      .next { s with a := keccakF s.a, b := permuteBuffer s.a } := by
  have hne : List.finRange 24 ≠ [] := by decide
  have h := runCommands_rounds (List.finRange 24) s hs
  rw [if_neg hne] at h
  exact h

/-- The first command of a run may find `DONE = 1`: if its rule does not fail, that makes no difference. -/
theorem runCommands_done {s : State} (he : s.status.err = none) {i : Instr}
    (hi : ∃ u, ruleOf i (accepted s) = .ok u) (is : List Instr) :
    runCommands (i :: is) s = runCommands (i :: is) { s with status := idleStatus } := by
  rw [runCommands, exec_done he i hi, runCommands]

theorem exec_permute_eq_rounds {s : State} (he : s.status.err = none) :
    exec .permute s = runCommands ((List.range 24).map fun r => .round (BitVec.ofNat 5 r)) s := by
  have hclear : runCommands ((List.range 24).map fun r => .round (BitVec.ofNat 5 r)) s =
      runCommands ((List.range 24).map fun r => .round (BitVec.ofNat 5 r)) { s with status := idleStatus } :=
    runCommands_done (i := .round 0) he ⟨_, withRound_legal (by decide) roundState _⟩ _
  rw [hclear, runCommands_all_rounds rfl, exec_permute he]

/-! ### `HASH` -/

/-- The state after `INIT` and `PAD`. -/
def paddedState (s : State) : State :=
  { s with a := zeroLanes, b := zeroLanes, blk := 0, ocnt := 0, ibuf := (padBytes s s.ilen.toNat).ibuf
           plen := BitVec.ofNat 64 (paddedLen s.ilen.toNat), status := idleStatus }

theorem runCommands_init_pad {s : State} (he : s.status.err = none) (hi : s.ilen.toNat < s.params.ibufCap) :
    runCommands [.init, .pad] s = .next (paddedState s) := by
  rw [runCommands_cons (exec_init he), runCommands_cons (exec_pad rfl ?_)]
  · rfl
  · exact hi

/-- The blocks of the padded message, absorbed one after another. -/
theorem runCommands_absorb_padded {s : State} (hp : s.params.wf) (hi : s.ilen.toNat < s.params.ibufCap) :
    ∃ blk : Word, blk.toNat = paddedLen s.ilen.toNat / 168 ∧
      runCommands (List.replicate (s.ilen.toNat / 168 + 1) .absorb) (paddedState s) =
        .next { paddedState s with a := (hashAbsorbed s).1, b := (hashAbsorbed s).2, blk := blk } := by
  obtain ⟨-, hc, hb, -⟩ := hp
  have hle := paddedLen_le hc hi
  have hplen : (paddedState s).plen.toNat = paddedLen s.ilen.toNat :=
    (BitVec.toNat_ofNat _ _).trans (Nat.mod_eq_of_lt (by omega))
  have hblk : (paddedState s).blk.toNat = 0 := rfl
  have hblocks : s.ilen.toNat / 168 + 1 = paddedLen s.ilen.toNat / 168 := by unfold paddedLen; omega
  have hpair : absorbPair (paddedState s) = absorbPair (padBytes s s.ilen.toNat) := absorbPair_congr rfl rfl
  obtain ⟨blk, hcount, hrun⟩ := runCommands_absorb (paddedLen s.ilen.toNat / 168) (paddedState s) rfl
    (by rw [hblk, hplen, Nat.zero_add]; exact Nat.mul_div_le _ _)
  rw [hblk, hpair] at hrun
  rw [hblk, Nat.zero_add] at hcount
  exact ⟨blk, hcount, by rw [hblocks]; exact hrun⟩

/-- `HASH` when both checks pass is its sequence, but for `DONE`. -/
theorem exec_hash_eq_steps {s : State} (he : s.status.err = none) (hp : s.params.wf)
    (hi : s.ilen.toNat < s.params.ibufCap) (ho : 21 * readoutsNeeded s.olen.toNat ≤ s.params.obufCapW) :
    ∃ t, exec .hash s = .next t ∧ t.status = ⟨false, true, none⟩ ∧
      runCommands (([.init, .pad] : List Instr) ++ List.replicate (s.ilen.toNat / 168 + 1) Instr.absorb ++
        List.replicate (readoutsNeeded s.olen.toNat) Instr.squeeze) s = .next { t with status := idleStatus } := by
  obtain ⟨blk, ocnt, hblk, hocnt, hhash⟩ := exec_hash he hp hi ho
  obtain ⟨blk', hblk', habsorb⟩ := runCommands_absorb_padded hp hi
  obtain rfl : blk' = blk := BitVec.eq_of_toNat_eq (hblk'.trans hblk.symm)
  obtain ⟨-, -, -, -, -, hw⟩ := hp
  obtain ⟨ocnt', hocnt', hsqueeze⟩ := runCommands_squeeze (readoutsNeeded s.olen.toNat)
    { paddedState s with a := (hashAbsorbed s).1, b := (hashAbsorbed s).2, blk := blk' } rfl
    ((Nat.zero_add _).trans_le ho) (by show s.params.obufCapW < 2 ^ 64; omega)
  obtain rfl : ocnt' = ocnt := BitVec.eq_of_toNat_eq ((hocnt'.trans (Nat.zero_add _)).trans hocnt.symm)
  refine ⟨_, hhash, rfl, ?_⟩
  rw [List.append_assoc, runCommands_append _ _ (runCommands_init_pad he hi), runCommands_append _ _ habsorb, hsqueeze]
  rfl

/-- Settles O48: each composite against its sequence. -/
theorem compositesEqualTheirSequences : Obligations.CompositesEqualTheirSequences := fun _ hp he =>
  ⟨fun _ hr => exec_round_eq_steps he hr, exec_permute_eq_rounds he, exec_absorb_eq_steps he,
    exec_squeeze_eq_steps he, fun hi ho => exec_hash_eq_steps he hp hi ho⟩

end Sys2Proof.Machine
end

section
/-! PROOF. The four step commands `THETA`, `RHOPI`, `CHI`, `IOTA` (R131 to R135), lane by lane. What a command leaves
unchanged is read off the record update in its `exec` equation. -/

namespace Sys2Proof.Machine

/-! ### `THETA` -/

/-- `D[x]` as R131 writes it, with the column before `x` instead of the fourth after it. -/
theorem thetaTerm_eq (l : Lanes) (x : Fin 5) :
    thetaTerm l x = columnParity l (x - 1) ^^^ rotl64 (columnParity l (x + 1)) 1 := by
  have hpred : x - 1 = x + 4 := by revert x; decide
  rw [thetaTerm, hpred]

/-- Settles O32: each lane takes the theta term of its column, from the column parities of the old `A`. -/
theorem thetaResult : Obligations.ThetaResult := by
  refine ⟨decodeCmd_encodeCmd (i := .theta) rfl, fun s he => ⟨_, exec_theta he, fun x y => ?lane, rfl⟩⟩
  case lane => rw [laneAt_thetaLanes, thetaTerm_eq]; rfl

/-! ### `RHOPI` -/

/-- Pi is onto: `piSource u v` is the position that goes to `(u, v)` (R132). -/
theorem piSource_is_source (u v : Fin 5) :
    u = (piSource u v).2 ∧ v = 2 * (piSource u v).1 + 3 * (piSource u v).2 := by
  revert u v; decide

/-- Settles O34: the lane of each source at its destination, and a source for every destination. -/
theorem rhoPiResult : Obligations.RhoPiResult :=
  ⟨decodeCmd_encodeCmd (i := .rhopi) rfl, fun s he =>
    ⟨_, exec_rhopi he, laneAt_rhoPiLanes s.a, fun u v => ⟨_, _, piSource_is_source u v⟩, rfl⟩⟩

/-- The coordinate `x` of lane `i` (R22). -/
def laneX (i : Fin 25) : Fin 5 := Fin.ofNat 5 (i.val % 5)

/-- The coordinate `y` of lane `i` (R22). -/
def laneY (i : Fin 25) : Fin 5 := Fin.ofNat 5 (i.val / 5)

theorem getElem_eq_laneAt_coords (l : Lanes) (i : Fin 25) : l[i] = laneAt l (laneX i) (laneY i) :=
  getElem_eq_laneAt l i

/-- One entry of R137's table, as the formulas of R132 give it: the offset of the source `e.1`, and the coordinates
of the destination `e.2.2`. -/
abbrev IsPiEntry (e : Fin 25 × Nat × Fin 25) : Prop :=
  e.2.1 = rot (laneX e.1) (laneY e.1) ∧
    laneX e.2.2 = laneY e.1 ∧ laneY e.2.2 = 2 * laneX e.1 + 3 * laneY e.1

theorem getElem_rhoPiLanes (l : Lanes) {e : Fin 25 × Nat × Fin 25} (h : IsPiEntry e) :
    (rhoPiLanes l)[e.2.2] = rotl64 l[e.1] e.2.1 := by
  obtain ⟨hoffset, hx, hy⟩ := h
  rw [getElem_eq_laneAt_coords, getElem_eq_laneAt_coords, hx, hy, laneAt_rhoPiLanes, hoffset]

/-- What `RHOPI` leaves in `B`, by the entries of a list. -/
theorem exec_rhopi_entries {table : List (Fin 25 × Nat × Fin 25)} (htable : ∀ e ∈ table, IsPiEntry e) {s t : State}
    (he : s.status.err = none) (hexec : exec .rhopi s = .next t) :
    ∀ e ∈ table, t.b[e.2.2] = rotl64 s.a[e.1] e.2.1 := by
  intro e hmem
  obtain rfl := Host.Outcome.next.inj ((exec_rhopi he).symm.trans hexec)
  exact getElem_rhoPiLanes s.a (htable e hmem)

/-- Settles O35: every entry of the table is one that the formulas of R132 give. -/
theorem piMapTable : Obligations.PiMapTable :=
  ⟨by decide, rfl, fun _ _ he hexec => exec_rhopi_entries (by decide) he hexec⟩

/-! ### `CHI` -/

/-- Settles O36: each lane from three lanes of its row of `B`. -/
theorem chiResult : Obligations.ChiResult :=
  ⟨decodeCmd_encodeCmd (i := .chi) rfl, fun s he => ⟨_, exec_chi he, laneAt_chiLanes s.b, rfl⟩⟩

/-! ### `IOTA` -/

theorem encodeCmd_iota (r : BitVec 5) : encodeCmd (.iota r) = 0x1300#64 + r.setWidth 64 := by
  revert r; decide

theorem decodeCmd_iota {r : BitVec 5} (hr : r.toNat < 24) :
    decodeCmd (0x1300#64 + r.setWidth 64) = .ok (.iota r) := by
  rw [← encodeCmd_iota, decodeCmd_encodeCmd (i := .iota r) (roundIndexLegal_iff.2 hr)]

theorem laneAt_iotaLanes_zero (r : Fin 24) (l : Lanes) : laneAt (iotaLanes r l) 0 0 = laneAt l 0 0 ^^^ rc r := by
  rw [laneAt_iotaLanes, if_pos ⟨rfl, rfl⟩]

theorem laneAt_iotaLanes_of_ne (r : Fin 24) (l : Lanes) {x y : Fin 5} (h : (x, y) ≠ (0, 0)) :
    laneAt (iotaLanes r l) x y = laneAt l x y := by
  rw [laneAt_iotaLanes, if_neg fun hxy => h (Prod.ext hxy.1 hxy.2)]

/-- The same constant XORed twice cancels. -/
theorem iotaLanes_iotaLanes (r : Fin 24) (l : Lanes) : iotaLanes r (iotaLanes r l) = l := by
  apply lanes_ext
  intro x y
  by_cases h : (x, y) = (0, 0)
  · obtain ⟨rfl, rfl⟩ := Prod.mk.inj h
    rw [laneAt_iotaLanes_zero, laneAt_iotaLanes_zero, BitVec.xor_assoc, BitVec.xor_self, BitVec.xor_zero]
  · rw [laneAt_iotaLanes_of_ne r _ h, laneAt_iotaLanes_of_ne r l h]

/-- Settles O37: lane (0,0), every other lane, and the second `IOTA r` on the state the first leaves. -/
theorem iotaResult : Obligations.IotaResult := by
  refine fun r hr => ⟨decodeCmd_iota hr, fun s he =>
    ⟨_, exec_iota he hr, laneAt_iotaLanes_zero _ s.a, fun x y => laneAt_iotaLanes_of_ne _ s.a, rfl, ?twice⟩⟩
  case twice => rw [exec_iota rfl hr, iotaLanes_iotaLanes]

end Sys2Proof.Machine
end

section
/-! PROOF. `ROUND r` as its four steps and `PERMUTE` as its rounds (R150, R151). -/

namespace Sys2Proof.Machine

/-! ### `ROUND` -/

theorem encodeCmd_round (r : BitVec 5) : encodeCmd (.round r) = 0x1800#64 + r.setWidth 64 := by
  revert r; decide

theorem decodeCmd_round {r : BitVec 5} (hr : r.toNat < 24) :
    decodeCmd (0x1800#64 + r.setWidth 64) = .ok (.round r) := by
  rw [← encodeCmd_round, decodeCmd_encodeCmd (i := .round r) (roundIndexLegal_iff.2 hr)]

@[simp] theorem zero_rotl64 (n : Nat) : rotl64 0#64 n = 0#64 := by
  simp [rotl64, BitVec.rotateLeft, BitVec.rotateLeftAux]

/-- Lanes that are 0 at every coordinate pair. -/
theorem eq_zeroLanes {l : Lanes} (h : ∀ x y, laneAt l x y = 0) : l = zeroLanes :=
  lanes_ext fun x y => (h x y).trans (laneAt_zeroLanes x y).symm

theorem thetaLanes_zeroLanes : thetaLanes zeroLanes = zeroLanes :=
  eq_zeroLanes fun x y => by simp [thetaTerm, columnParity]

theorem rhoPiLanes_zeroLanes : rhoPiLanes zeroLanes = zeroLanes :=
  eq_zeroLanes fun x y => by simp [rhoPiLanes, laneAt_lanesOf]

theorem chiLanes_zeroLanes : chiLanes zeroLanes = zeroLanes :=
  eq_zeroLanes fun x y => by simp

/-- On zero lanes only the last step of a round has an effect. -/
theorem roundLanes_zeroLanes (r : Fin 24) : roundLanes r zeroLanes = iotaLanes r zeroLanes := by
  rw [roundLanes, thetaLanes_zeroLanes, rhoPiLanes_zeroLanes, chiLanes_zeroLanes]

/-- What a round leaves of zero lanes in `A` and in `B` (R150). -/
theorem round_of_zero (r : Fin 24) {l : Lanes} (h : ∀ x y, laneAt l x y = 0) :
    laneAt (roundLanes r l) 0 0 = rc r ∧ (∀ x y : Fin 5, (x, y) ≠ (0, 0) → laneAt (roundLanes r l) x y = 0) ∧
      ∀ x y, laneAt (rhoPiLanes (thetaLanes l)) x y = 0 := by
  obtain rfl := eq_zeroLanes h
  rw [roundLanes_zeroLanes, thetaLanes_zeroLanes, rhoPiLanes_zeroLanes]
  refine ⟨?origin, fun x y hxy => ?other, laneAt_zeroLanes⟩
  case origin => rw [laneAt_iotaLanes_zero, laneAt_zeroLanes]; exact BitVec.zero_xor
  case other => rw [laneAt_iotaLanes_of_ne r _ hxy, laneAt_zeroLanes]

/-- Settles O38: each step starts from the state the one before it leaves, and what the last leaves is what the round
leaves. -/
theorem roundIsTheFourSteps : Obligations.RoundIsTheFourSteps := fun _ hr =>
  ⟨decodeCmd_round hr, fun _ he => ⟨_, _, _, _, exec_theta he, exec_rhopi rfl, exec_chi rfl, exec_iota rfl hr,
    exec_round he hr, rfl, rfl, round_of_zero _⟩⟩

/-! ### `PERMUTE` -/

theorem runCommands_singleton (i : Instr) (s : State) : runCommands [i] s = exec i s := by
  cases h : exec i s <;> simp only [runCommands, h]

/-- Rounds 0 to 22 as commands, all but the last of the 24. -/
theorem runCommands_first_rounds {s : State} (he : s.status.err = none) :
    runCommands ((List.range 23).map fun r => .round (BitVec.ofNat 5 r)) s =
      .next { s with a := roundsLanes (List.finRange 24).dropLast s.a
                     b := rhoPiLanes (thetaLanes (roundsLanes (List.finRange 24).dropLast.dropLast s.a))
                     status := idleStatus } := by
  have hne : (List.finRange 24).dropLast ≠ [] := by decide
  have hrounds := runCommands_rounds (List.finRange 24).dropLast { s with status := idleStatus } rfl
  rw [if_neg hne] at hrounds
  exact (runCommands_done (i := .round 0) he ⟨_, withRound_legal (by decide) roundState _⟩ _).trans hrounds

/-- After rounds 0 to 22, round 23 completes the permutation. -/
theorem exec_permute_eq_last_round {s u : State} (he : s.status.err = none)
    (hfirst : runCommands ((List.range 23).map fun r => .round (BitVec.ofNat 5 r)) s = .next u) :
    exec .permute s = exec (.round 23) u := by
  rw [exec_permute_eq_rounds he, List.range_succ, List.map_append, runCommands_append _ _ hfirst]
  exact runCommands_singleton (.round 23) u

/-- Settles O39: the rounds 0 to 22 complete, and the round after them is the permutation. -/
theorem permuteIsTheRoundsInOrder : Obligations.PermuteIsTheRoundsInOrder := by
  refine ⟨decodeCmd_encodeCmd (i := .permute) rfl, fun s he => ?_⟩
  have hfirst := runCommands_first_rounds he
  have hpermute := exec_permute he
  exact ⟨_, _, hfirst, (exec_permute_eq_last_round he hfirst).symm.trans hpermute, hpermute, rfl⟩

end Sys2Proof.Machine
end

section
/-! PROOF. The sponge primitives `INIT`, `PAD`, `XORB`, `EXTB` (R161, R165, R168, R170). What a command leaves unchanged
is read off the record update in its `exec` equation; here stand the lanes and the bytes it writes. -/

namespace Sys2Proof.Machine

/-! ### `INIT` -/

theorem window_eq_zero {s : State} (h : s.ocnt = 0) : window s = 0 := by simp [window, h]

/-- Settles O40: the zeroed fields, the empty window of `OCNT = 0`, the second `INIT`, and the halted engine. -/
theorem initResult : Obligations.InitResult := by
  refine ⟨decodeCmd_encodeCmd (i := .init) rfl, fun s he => ?ready, fun s he => ?halted⟩
  case ready =>
    exact ⟨_, exec_init he, fun x y => ⟨laneAt_zeroLanes x y, laneAt_zeroLanes x y⟩, rfl, rfl, rfl, rfl,
      window_eq_zero rfl, exec_init rfl⟩
  case halted =>
    obtain ⟨c, hc⟩ := Option.ne_none_iff_exists'.1 he
    exact exec_halted hc .init

/-! ### `PAD` -/

/-- The message and every byte past the padding are as before. -/
theorem ibufByte_padBytes_outside (s : State) {n k : Nat} (h : k < n ∨ paddedLen n ≤ k) :
    ibufByte (padBytes s n) k = ibufByte s k := by
  obtain ⟨hlt, -, -⟩ := paddedLen_bounds n
  rw [ibufByte_padBytes, if_neg (by omega), if_neg (by omega), if_neg (by omega)]

theorem ibufByte_padBytes_suffix (s : State) {n : Nat} (h : n < paddedLen n - 1) :
    ibufByte (padBytes s n) n = dsuf := by
  rw [ibufByte_padBytes, if_neg h.ne, if_pos rfl]

theorem ibufByte_padBytes_last (s : State) {n : Nat} (h : n < paddedLen n - 1) :
    ibufByte (padBytes s n) (paddedLen n - 1) = finalBit := by
  rw [ibufByte_padBytes, if_pos rfl, if_neg h.ne]

theorem ibufByte_padBytes_between (s : State) {n k : Nat} (hn : n < k) (hp : k < paddedLen n - 1) :
    ibufByte (padBytes s n) k = 0 := by
  rw [ibufByte_padBytes, if_neg hp.ne, if_neg hn.ne', if_pos (by omega)]

/-- One byte of padding is both the first and the last. -/
theorem ibufByte_padBytes_single (s : State) {n : Nat} (h : n = paddedLen n - 1) :
    ibufByte (padBytes s n) n = dsuf ^^^ finalBit := by
  rw [ibufByte_padBytes, if_pos h, if_pos h]

/-- Padding writes the same bytes again when it is repeated: none of them depends on what the buffer held. -/
theorem padBytes_of_padded {s t : State} {n : Nat} (hw : s.ibuf.wf) (ht : t.ibuf = (padBytes s n).ibuf) :
    (padBytes t n).ibuf = t.ibuf := by
  have hwt : t.ibuf.wf := ht ▸ wf_padBytes hw n
  refine Memory.ext_of_wf (wf_padBytes hwt n) hwt fun k => ?_
  rw [lookup_padBytes t, ht, lookup_padBytes s]
  split_ifs <;> rfl

/-- A `PAD` of a padded buffer changes nothing. -/
theorem exec_pad_of_padded {s : State} (hst : s.status = idleStatus) (hi : s.ilen.toNat < s.params.ibufCap)
    (hbuf : (padBytes s s.ilen.toNat).ibuf = s.ibuf) (hplen : BitVec.ofNat 64 (paddedLen s.ilen.toNat) = s.plen) :
    exec .pad s = .next s := by
  rw [exec_pad (by rw [hst]; rfl) hi, hbuf, hplen, ← hst]

/-- Settles O41: each padding byte, the bytes outside the padding, `PLEN` (which fits its register, as the padding fits
`IBUF`), and the second `PAD`. -/
theorem padResult : Obligations.PadResult := by
  refine ⟨decodeCmd_encodeCmd (i := .pad) rfl, fun s hp he => ⟨exec_pad_fault he, fun hi => ?_⟩⟩
  obtain ⟨-, hc, hb, -⟩ := hp
  have hle : paddedLen s.ilen.toNat ≤ s.params.ibufCap := paddedLen_le hc hi
  have hplen : (BitVec.ofNat 64 (paddedLen s.ilen.toNat)).toNat = paddedLen s.ilen.toNat :=
    (BitVec.toNat_ofNat _ _).trans (Nat.mod_eq_of_lt (by omega))
  exact ⟨_, exec_pad he hi, hplen, hle, fun _ => ibufByte_padBytes_outside s,
    fun h => ⟨ibufByte_padBytes_suffix s h, ibufByte_padBytes_last s h⟩, fun _ => ibufByte_padBytes_between s,
    ibufByte_padBytes_single s, rfl, fun hw => exec_pad_of_padded rfl hi (padBytes_of_padded hw rfl) rfl⟩

/-! ### `XORB` -/

theorem getElem_xorRate_of_lt (l : Lanes) (w : Nat → Word) {j : Fin 25} (h : j.val < 21) :
    (xorRate l w)[j] = l[j] ^^^ w j.val := by
  rw [getElem_xorRate, if_pos h]

theorem getElem_xorRate_of_ge (l : Lanes) (w : Nat → Word) {j : Fin 25} (h : 21 ≤ j.val) :
    (xorRate l w)[j] = l[j] := by
  rw [getElem_xorRate, if_neg (Nat.not_lt.2 h)]

/-- Settles O42: the rate lanes, the capacity lanes, and `BLK`, whose block lies below `PLEN`, so that it does not
wrap. -/
theorem xorbResult : Obligations.XorbResult := by
  refine ⟨decodeCmd_encodeCmd (i := .xorb) rfl, fun s he => ⟨exec_xorb_fault he, fun h => ?_⟩⟩
  have hblk : (s.blk + 1).toNat = s.blk.toNat + 1 := toNat_add_one (m := s.plen.toNat) (by omega) s.plen.isLt
  exact ⟨_, exec_xorb he h, fun j => getElem_xorRate_of_lt s.a (blockWord s s.blk.toNat),
    fun j => getElem_xorRate_of_ge s.a (blockWord s s.blk.toNat), hblk, rfl⟩

/-! ### `EXTB` -/

/-- Byte `k` of lane `j` stands at byte `k` of word `o + j` of the accumulator. -/
theorem lookup_storeRate_inside (m : Memory) (o : Nat) (l : Lanes) {j : Fin 25} (hj : j.val < 21) {k : Nat}
    (hk : k < 8) :
    (m.storeBytes (8 * o) (rateBytesOf l)).lookup (8 * (o + j.val) + k) = some (byteOf l[j] k) := by
  have hpos : 8 * (o + j.val) + k - 8 * o = 8 * j.val + k := by omega
  rw [lookup_storeRate, if_pos (by omega), hpos, ← laneOfWord_eq]
  exact getElem?_flatMap_bytes (laneOfWord l) 21 j.val k hj hk

theorem lookup_storeRate_outside (m : Memory) (o : Nat) (l : Lanes) {k : Nat}
    (h : k < 8 * o ∨ 8 * (o + 21) ≤ k) : (m.storeBytes (8 * o) (rateBytesOf l)).lookup k = m.lookup k := by
  rw [lookup_storeRate, if_neg (by omega)]

/-- Settles O43: the bytes of the 21 words, every other byte of `OBUF`, and `OCNT`, which stays within the capacity, so
that it does not wrap. -/
theorem extbResult : Obligations.ExtbResult := by
  refine ⟨decodeCmd_encodeCmd (i := .extb) rfl, fun s hp he => ⟨exec_extb_fault he, fun h => ?_⟩⟩
  obtain ⟨-, -, -, -, -, hcap⟩ := hp
  have hocnt : (s.ocnt + 21).toNat = s.ocnt.toNat + 21 := toNat_add_21 h (by omega)
  refine ⟨_, exec_extb he h, fun j hj k hk => ?inside, fun k hk => ?outside, hocnt, ?frame⟩
  case inside => rw [obufByte, lookup_storeRate_inside _ _ _ hj hk, Option.getD_some]
  case outside => rw [obufByte, lookup_storeRate_outside _ _ _ hk, obufByte]
  case frame => dsimp only

end Sys2Proof.Machine
end

section
/-! PROOF. The composites `ABSORB`, `SQUEEZE`, `HASH` (R180, R182, R184, R187, R189): each against the primitives that
make it up, and `HASH` against the pure function of R186. -/

namespace Sys2Proof.Machine

/-! ### `ABSORB`, `SQUEEZE` -/

/-- Settles O45: `XORB`, then `PERMUTE` on the state it leaves. -/
theorem absorbResult : Obligations.AbsorbResult := by
  refine ⟨decodeCmd_encodeCmd (i := .absorb) rfl, fun s he => ⟨exec_absorb_fault he, fun h => ?_⟩⟩
  have hblk : (s.blk + 1).toNat = s.blk.toNat + 1 := toNat_add_one (m := s.plen.toNat) (by omega) s.plen.isLt
  exact ⟨_, _, exec_xorb he h, rfl, exec_permute rfl, exec_absorb he h, hblk, rfl⟩

/-- Settles O46: `EXTB`, then `PERMUTE` on the state it leaves, which keeps `OBUF`. -/
theorem squeezeResult : Obligations.SqueezeResult := by
  refine ⟨decodeCmd_encodeCmd (i := .squeeze) rfl, fun s hp he => ⟨exec_squeeze_fault he, fun h => ?_⟩⟩
  obtain ⟨-, -, -, -, -, hcap⟩ := hp
  have hocnt : (s.ocnt + 21).toNat = s.ocnt.toNat + 21 := toNat_add_21 h (by omega)
  refine ⟨_, _, exec_extb he h, rfl, exec_permute rfl, ?steps, hocnt, fun k hk => ?outside, ?frame⟩
  case steps =>
    rw [exec_squeeze_eq_steps he h, runCommands_cons (exec_extb he h), runCommands_cons (exec_permute rfl), runCommands]
  case outside => rw [obufByte, lookup_storeRate_outside _ _ _ hk, obufByte]
  case frame => dsimp only

/-! ### `HASH` -/

/-- The output stream is written from word 0 on: the bytes past its end are as before. -/
theorem lookup_storeStream_outside (m : Memory) (l : Lanes) {n k : Nat} (h : 8 * (21 * n) ≤ k) :
    (m.storeBytes 0 (shakeStream l n)).lookup k = m.lookup k := by
  have hend : (shakeStream l n).length ≤ k - 0 := by rw [length_shakeStream]; omega
  rw [Memory.lookup_storeBytes, if_pos (Nat.zero_le k), List.getElem?_eq_none hend, Option.none_or]

/-- The hand sequence leaves what `HASH` leaves, but for `DONE`. -/
theorem runCommands_hash_steps {s t : State} (he : s.status.err = none) (hp : s.params.wf)
    (hi : s.ilen.toNat < s.params.ibufCap) (ho : 21 * readoutsNeeded s.olen.toNat ≤ s.params.obufCapW)
    (h : exec .hash s = .next t) :
    runCommands (([.init, .pad] : List Instr) ++ List.replicate (s.ilen.toNat / 168 + 1) Instr.absorb ++
      List.replicate (readoutsNeeded s.olen.toNat) Instr.squeeze) s = .next { t with status := idleStatus } := by
  obtain ⟨t', h', -, hrun⟩ := exec_hash_eq_steps he hp hi ho
  obtain rfl : t' = t := by simpa [h'] using h
  exact hrun

/-- Settles O47: the fields `HASH` writes, the padding in `IBUF`, what it leaves of `OBUF`, and its sequence. -/
theorem hashStateAtCompletion : Obligations.HashStateAtCompletion := by
  refine ⟨decodeCmd_encodeCmd (i := .hash) rfl, fun s hp he => ⟨exec_hash_fault he, fun hi ho => ?_⟩⟩
  obtain ⟨blk, ocnt, hblk, hocnt, hhash⟩ := exec_hash he hp hi ho
  have hrun := runCommands_hash_steps he hp hi ho hhash
  have hblocks : s.ilen.toNat / 168 + 1 = 168 * (s.ilen.toNat / 168 + 1) / 168 :=
    (Nat.mul_div_cancel_left _ (by decide)).symm
  obtain ⟨-, hc, hb, -⟩ := hp
  have hle : paddedLen s.ilen.toNat ≤ s.params.ibufCap := paddedLen_le hc hi
  have hplen : (BitVec.ofNat 64 (paddedLen s.ilen.toNat)).toNat = paddedLen s.ilen.toNat :=
    (BitVec.toNat_ofNat _ _).trans (Nat.mod_eq_of_lt (by omega))
  refine ⟨_, hhash, hplen, hblk, hocnt, rfl, fun _ => ibufByte_padBytes_outside s,
    fun h => ⟨ibufByte_padBytes_suffix s h, ibufByte_padBytes_last s h⟩, fun _ => ibufByte_padBytes_between s,
    ibufByte_padBytes_single s, fun k hk => ?obuf, ?sequence, rfl⟩
  case obuf => rw [obufByte, lookup_storeStream_outside (n := readoutsNeeded s.olen.toNat) _ _ hk, obufByte]
  case sequence => rw [← hblocks]; exact hrun

/-- `HASH` computes SHAKE128 of the message: the bytes of `OBUF` below `OLEN`, and `A` after the last read-out. -/
theorem exec_hash_shake128 {s : State} (he : s.status.err = none) (hp : s.params.wf)
    (hi : s.ilen.toNat < s.params.ibufCap) (ho : 21 * readoutsNeeded s.olen.toNat ≤ s.params.obufCapW) :
    ∃ t, exec .hash s = .next t ∧
      (List.range s.olen.toNat).map (obufByte t) = shake128 (message s) s.olen.toNat ∧
      t.a = shakeSqueezed (shakeStart (message s)) (readoutsNeeded s.olen.toNat) := by
  obtain ⟨_, _, -, -, hhash⟩ := exec_hash he hp hi ho
  obtain ⟨-, hbytes⟩ := exec_hash_result hp he hhash rfl
  refine ⟨_, hhash, List.ext_getElem ?length fun k _ hk => ?byte, ?lanes⟩
  case length => rw [List.length_map, List.length_range, length_shake128_eq]
  case byte => rw [List.getElem_map, List.getElem_range, hbytes k hk]
  case lanes => rw [← hashAbsorbed_fst]

/-- Settles O49: `HASH` against the pure function, and the hand sequence leaves the same `OBUF` and `A`. -/
theorem hashComputesShake128 : Obligations.HashComputesShake128 := by
  intro s hp he n ns msg hi ho
  obtain ⟨t, hhash, hbytes, hlanes⟩ := exec_hash_shake128 he hp hi ho
  exact ⟨t, _, hhash, runCommands_hash_steps he hp hi ho hhash, hbytes, hlanes, hbytes, hlanes⟩

/-! ### The two ends of a hash -/

theorem resultReady_of_status {s : State} (h : s.status = ⟨false, true, none⟩) : resultReady s = true := by
  simp [resultReady, halted, h]

theorem resultReady_of_fault {s : State} {c : FaultCode} (h : s.status.err = some c) : resultReady s = false := by
  simp [resultReady, halted, h]

/-- Reset clears `STATUS`, whatever the engine was doing (R230). -/
theorem issue_reset (s : State) : issue .reset s = .next (applyReset s) := by
  simp [issue_eq_hostMove, hostMove, allowedWhileBusy, applyReset]

/-- A fault shows in `STATUS` as `BUSY = 0` and a non-zero code (R34, R206). -/
theorem statusWord_fault (c : FaultCode) :
    (statusWord ⟨false, false, some c⟩).getLsbD 0 = false ∧
      (statusWord ⟨false, false, some c⟩).extractLsb' 8 8 ≠ 0 := by
  cases c <;> decide

/-- Settles O54: a command that is performed ends without a fault, `HASH` then with `DONE`, or with the fault entered,
and a halted engine ignores every command. -/
theorem hashEndsWithAResultOrAFault : Obligations.HashEndsWithAResultOrAFault := by
  intro s hinv he
  obtain ⟨t, hexec, hend⟩ := exec_ready (s := { s with reply := none }) he (i := .hash) rfl
  refine ⟨t, _, (issue_command hinv.idle he (i := .hash) (by decide)).trans hexec, issue_readReg_status t, ?_⟩
  rcases hend with hst | ⟨c, -, rfl⟩
  case inl =>
    rw [hst]
    exact ⟨by decide, .inl ⟨by decide, by decide, resultReady_of_status hst⟩⟩
  case inr =>
    obtain ⟨hbusy, herr⟩ := statusWord_fault c
    exact ⟨hbusy, .inr ⟨herr, resultReady_of_fault rfl, exec_halted rfl, _, issue_reset _, rfl⟩⟩

end Sys2Proof.Machine
end

section
/-! PROOF. The halted state is left by reset alone (R208). -/

namespace Sys2Proof.Machine

theorem hostWriteIbuf_halted {s : State} (he : s.status.err ≠ none) (a : Nat) (b : Byte) : hostWriteIbuf a b s = s :=
  if_pos (halted_eq_true he)

theorem hostReadIbuf_halted {s : State} (he : s.status.err ≠ none) (a : Nat) : (hostReadIbuf a s).2 = s := by
  simp only [hostReadIbuf, outOfRange_halted he, apply_ite Prod.snd, ite_self]

theorem hostReadObuf_halted {s : State} (he : s.status.err ≠ none) (a : Nat) : (hostReadObuf a s).2 = s := by
  simp only [hostReadObuf, outOfRange_halted he, apply_ite Prod.snd, ite_self]

/-- On a halted engine, busy or not, a move other than reset changes nothing but what the host's read returned (R76,
R207). -/
theorem hostMove_halted {m : HostMove} {s t : State} (he : s.status.err ≠ none) (hm : m ≠ .reset)
    (h : hostMove m s = .next t) : ∃ r, t = { s with reply := r } := by
  have hhalted := halted_eq_true he
  rcases hostMove_cases h with ⟨n, v, rfl, hwrite⟩ | ⟨n, rfl, rfl⟩ | ⟨a, b, rfl, rfl⟩ | ⟨a, rfl, rfl⟩ |
    ⟨a, rfl, rfl⟩ | ⟨rfl, -⟩
  · obtain rfl : t = s := by simpa [hhalted] using hwrite
    exact ⟨_, rfl⟩
  · exact ⟨_, rfl⟩
  · exact ⟨_, hostWriteIbuf_halted he a b⟩
  · rw [hostReadIbuf_halted he]; exact ⟨_, rfl⟩
  · rw [hostReadObuf_halted he]; exact ⟨_, rfl⟩
  · exact absurd rfl hm

/-- Settles O17: a move other than reset leaves a halted engine's state, a command is ignored, and reset clears
`STATUS`. -/
theorem onlyResetClearsTheFault : Obligations.OnlyResetClearsTheFault := by
  intro s c hc
  refine ⟨fun m t hm h => ?move, exec_halted hc, _, issue_reset s, rfl⟩
  case move =>
    have he : s.status.err ≠ none := by simp [hc]
    obtain ⟨r, rfl⟩ := hostMove_halted (s := { s with reply := none }) he hm h
    exact hc

end Sys2Proof.Machine
end

section
/-! PROOF. Fault entry (R206): what a move that raises a fault leaves. -/

namespace Sys2Proof.Machine

theorem next_unique {o : Host.Outcome State Fault Refusal} {t u : State} (ht : o = .next t) (hu : o = .next u) :
    t = u :=
  Host.Outcome.next.inj (ht.symm.trans hu)

/-! ### Writes to a register other than `CMD`, and to `IBUF` (R71, R73) -/

@[simp] theorem writeReg_status (s : State) (n : Nat) (v : Word) : (writeReg s n v).status = s.status := by
  unfold writeReg
  split_ifs <;> rfl

theorem issue_writeIbuf_inside {s : State} (hb : s.status.busy = false) (he : s.status.err = none) {a : Nat}
    (h : a < s.params.ibufCap) (b : Byte) :
    issue (.writeIbuf a b) s = .next (writeIbuf { s with reply := none } a b) := by
  simp [issue_eq_hostMove, hostMove_idle, hb, hostWriteIbuf, halted, he, h]

theorem issue_writeIbuf_outside {s : State} (hb : s.status.busy = false) (he : s.status.err = none) {a : Nat}
    (h : s.params.ibufCap ≤ a) (b : Byte) :
    issue (.writeIbuf a b) s = .next (raiseFault .index { s with reply := none }) := by
  simp [issue_eq_hostMove, hostMove_idle, hb, hostWriteIbuf, halted, he, h]

/-! ### The state after the fault -/

/-- What a faulting move returns to the host: a read of a buffer returns 0, a write nothing (R74, R75). -/
def faultReply : HostMove → Option Reply
  | .readIbuf _ | .readObuf _ => some (.byte 0)
  | _ => none

/-- The engine halts with `c` recorded, everything else as it was (R206), and the host is given `r`. -/
def faultEntered (s : State) (c : FaultCode) (r : Option Reply) : State :=
  { s with status := ⟨false, false, some c⟩, reply := r }

/-- A write to a register that leaves a fault recorded is a write to `CMD`, and enters the fault (R201, R204). -/
theorem issue_writeReg_fault {s t : State} {n : Nat} {v : Word} (hb : s.status.busy = false)
    (he : s.status.err = none) (h : issue (.writeReg n v) s = .next t) (ht : t.status.err ≠ none) :
    ∃ c, t = faultEntered s c none := by
  by_cases hn : n = 0
  · subst hn
    by_cases hd : ∃ i, decodeCmd v = .ok i
    · obtain ⟨i, hi⟩ := hd
      obtain ⟨u, hexec, hend⟩ := exec_ready (s := { s with reply := none }) he (decodeCmd_eq_ok_iff.1 hi).1
      obtain rfl := next_unique h ((issue_command hb he hi).trans hexec)
      rcases hend with hst | ⟨c, -, hu⟩
      · exact absurd (congrArg Status.err hst) ht
      · exact ⟨c, hu⟩
    · exact ⟨.illegalCmd, next_unique h (issue_illegal_command hb he (not_exists.1 hd))⟩
  · obtain rfl := next_unique h (issue_writeReg_register hb he hn v)
    exact absurd he (by simpa using ht)

/-- Whatever move raises a fault, the state it leaves is the one before with the fault entered. -/
theorem issue_fault {m : HostMove} {s t : State} (hb : s.status.busy = false) (he : s.status.err = none)
    (h : issue m s = .next t) (ht : t.status.err ≠ none) : ∃ c, t = faultEntered s c (faultReply m) := by
  cases m with
  | writeReg n v => exact issue_writeReg_fault hb he h ht
  | readReg n =>
    obtain rfl := next_unique h (issue_readReg hb n)
    exact absurd he ht
  | writeIbuf a b =>
    rcases lt_or_ge a s.params.ibufCap with ha | ha
    · obtain rfl := next_unique h (issue_writeIbuf_inside hb he ha b)
      exact absurd he ht
    · exact ⟨.index, next_unique h (issue_writeIbuf_outside hb he ha b)⟩
  | readIbuf a =>
    rcases lt_or_ge a s.params.ibufCap with ha | ha
    · obtain rfl := next_unique h (issue_readIbuf_inside hb ha)
      exact absurd he ht
    · rw [issue_readIbuf_outside hb ha, outOfRange_ready he] at h
      exact ⟨.index, next_unique h rfl⟩
  | readObuf a =>
    rcases lt_or_ge a (window s) with ha | ha
    · obtain rfl := next_unique h (issue_readObuf_inside hb ha)
      exact absurd he ht
    · rw [issue_readObuf_outside hb ha, outOfRange_ready he] at h
      exact ⟨.index, next_unique h rfl⟩
  | reset =>
    obtain rfl := next_unique h (issue_reset s)
    exact absurd rfl ht

theorem faultReply_of_read {m : HostMove} {a : Nat} (h : m = .readIbuf a ∨ m = .readObuf a) :
    faultReply m = some (.byte 0) := by
  rcases h with rfl | rfl <;> rfl

theorem faultReply_of_not_read {m : HostMove} (h : ∀ a, m ≠ .readIbuf a ∧ m ≠ .readObuf a) :
    faultReply m = none := by
  cases m with
  | readIbuf a => exact absurd rfl (h a).1
  | readObuf a => exact absurd rfl (h a).2
  | _ => rfl

/-- Settles O18: the state left is the fault entered, with what the faulting move returns. -/
theorem faultEntryIsPrecise : Obligations.FaultEntryIsPrecise := by
  intro m s t c hb he h hc
  obtain ⟨d, rfl⟩ := issue_fault hb he h (by simp [hc])
  obtain rfl : d = c := Option.some.inj hc
  exact ⟨rfl, fun _ => faultReply_of_read, faultReply_of_not_read⟩

end Sys2Proof.Machine
end

section
/-! PROOF. Which command raises which fault, and when (R204). -/

namespace Sys2Proof.Machine

/-- The table of R204: the fault each well-formed command raises in a state without one. -/
def faultOf (s : State) : Instr → Option FaultCode
  | .pad => if s.params.ibufCap ≤ s.ilen.toNat then some .capacity else none
  | .xorb | .absorb => if s.plen.toNat < 168 * (s.blk.toNat + 1) then some .index else none
  | .extb | .squeeze => if s.params.obufCapW < s.ocnt.toNat + 21 then some .capacity else none
  | .hash => if s.params.ibufCap ≤ s.ilen.toNat ∨ s.params.obufCapW < 21 * readoutsNeeded s.olen.toNat then
      some .capacity else none
  | _ => none

theorem err_of_exec {i : Instr} {s t u : State} (h : exec i s = .next t) (hu : exec i s = .next u) :
    t.status.err = u.status.err := by
  rw [next_unique h hu]

/-- A command with one check: `d` when the check fails, no fault when it passes. -/
theorem err_eq_ite {i : Instr} {s t : State} {p : Prop} [Decidable p] {d : FaultCode} (h : exec i s = .next t)
    (hfault : p → exec i s = .next { s with status := ⟨false, false, some d⟩ })
    (hok : ¬ p → ∃ u, exec i s = .next u ∧ u.status.err = none) :
    t.status.err = if p then some d else none := by
  split
  case isTrue hp => exact err_of_exec h (hfault hp)
  case isFalse hp =>
    obtain ⟨u, hu, herr⟩ := hok hp
    exact (err_of_exec h hu).trans herr

/-- A well-formed command records the fault of the table; `HASH` is given admissible capacities (R6), under which
nothing fails after its two checks. -/
theorem exec_err {i : Instr} {s t : State} (hw : WellFormed i = true) (he : s.status.err = none)
    (hp : i = .hash → s.params.wf) (h : exec i s = .next t) : t.status.err = faultOf s i := by
  cases i with
  | theta => exact err_of_exec h (exec_theta he)
  | rhopi => exact err_of_exec h (exec_rhopi he)
  | chi => exact err_of_exec h (exec_chi he)
  | iota r => exact err_of_exec h (exec_iota he (roundIndexLegal_iff.1 hw))
  | round r => exact err_of_exec h (exec_round he (roundIndexLegal_iff.1 hw))
  | permute => exact err_of_exec h (exec_permute he)
  | init => exact err_of_exec h (exec_init he)
  | pad => exact err_eq_ite h (exec_pad_fault he) fun hc => ⟨_, exec_pad he (Nat.not_le.1 hc), rfl⟩
  | xorb => exact err_eq_ite h (exec_xorb_fault he) fun hc => ⟨_, exec_xorb he (Nat.not_lt.1 hc), rfl⟩
  | extb => exact err_eq_ite h (exec_extb_fault he) fun hc => ⟨_, exec_extb he (Nat.not_lt.1 hc), rfl⟩
  | absorb => exact err_eq_ite h (exec_absorb_fault he) fun hc => ⟨_, exec_absorb he (Nat.not_lt.1 hc), rfl⟩
  | squeeze => exact err_eq_ite h (exec_squeeze_fault he) fun hc => ⟨_, exec_squeeze he (Nat.not_lt.1 hc), rfl⟩
  | hash =>
    refine err_eq_ite h (exec_hash_fault he) fun hc => ?_
    obtain ⟨hi, ho⟩ := not_or.1 hc
    obtain ⟨_, _, -, -, hhash⟩ := exec_hash he (hp rfl) (Nat.not_le.1 hi) (Nat.not_lt.1 ho)
    exact ⟨_, hhash, rfl⟩

theorem exists_decodeR_iff {mk : BitVec 5 → Instr} {v : Word} :
    (∃ i, decodeR mk v = .ok i) ↔ reservedField v = 0 ∧ (roundField v).toNat < 24 := by
  simp only [decodeR_eq_ok, roundIndexLegal_iff, exists_and_left, exists_eq', and_true]

/-- When an operand of format `R` is illegal (R102, R104). -/
theorem decodeR_rejects_iff {mk : BitVec 5 → Instr} {v : Word} :
    (∀ i, decodeR mk v ≠ .ok i) ↔ (24 ≤ (roundField v).toNat ∨ reservedField v ≠ 0) := by
  rw [← not_exists, exists_decodeR_iff, not_and_or, Nat.not_lt, or_comm]

theorem decodeCmd_eq_decodeR {v : Word} (hh : highField v = 0) (ho : opField v = 0x13 ∨ opField v = 0x18) :
    ∃ mk, decodeCmd v = decodeR mk v := by
  rcases ho with ho | ho
  · exact ⟨.iota, by simp [decodeCmd, hh, ho]⟩
  · exact ⟨.round, by simp [decodeCmd, hh, ho]⟩

/-- Settles O19: the error field is read off the table of R204; the operand rule of format `R` is the decoder's. -/
theorem eachCommandFaultsExactlyWhen : Obligations.EachCommandFaultsExactlyWhen := by
  refine ⟨fun s i hw he => ?commands, fun v hh ho => ?formatR⟩
  case commands =>
    obtain ⟨t, hexec, -⟩ := exec_ready he hw
    have herr (hp : i = .hash → s.params.wf) : t.status.err = faultOf s i := exec_err hw he hp hexec
    refine ⟨t, hexec, ?plain, ?rounds, ?pad, ?blocks, ?readouts, ?hash⟩
    case plain => rintro (rfl | rfl | rfl | rfl | rfl) <;> exact herr (by simp)
    case rounds => rintro r (rfl | rfl) <;> exact herr (by simp)
    case pad => rintro rfl; exact herr (by simp)
    case blocks => rintro (rfl | rfl) <;> exact herr (by simp)
    case readouts => rintro (rfl | rfl) <;> exact herr (by simp)
    case hash => rintro rfl hp; exact herr fun _ => hp
  case formatR =>
    obtain ⟨mk, hmk⟩ := decodeCmd_eq_decodeR hh ho
    rw [hmk]
    exact decodeR_rejects_iff

end Sys2Proof.Machine
end

section
/-! PROOF. Decoding and encoding agree (R100 to R104), and sample words of the table. -/

namespace Sys2Proof

/-- Settles O1: `decodeCmd_encodeCmd` is the one direction, the fields of a value that decodes the other. -/
theorem decodeGivesExactlyTheEncodings : Obligations.DecodeGivesExactlyTheEncodings :=
  fun _ _ => decodeCmd_eq_ok_iff

/-- Settles O4: six words are the encodings of well-formed commands; the other two fail at the round index and at the
opcode. -/
theorem sampleWordsDecode : Obligations.SampleWordsDecode :=
  ⟨decodeCmd_encodeCmd (i := .theta) rfl, decodeCmd_encodeCmd (i := .iota 5) rfl,
    decodeCmd_encodeCmd (i := .round 23) rfl, decodeCmd_encodeCmd (i := .permute) rfl,
    decodeCmd_encodeCmd (i := .pad) rfl, decodeCmd_encodeCmd (i := .hash) rfl, by decide, by decide⟩

end Sys2Proof
end

section
/-! PROOF. What the rule of a command does when it does not fail, on every state: the inversions that the frames and
the invariants are read off. -/

namespace Sys2Proof.Machine

theorem toNat_ofNat_paddedLen {p : Params} (hp : p.wf) {n : Nat} (h : n < p.ibufCap) :
    (BitVec.ofNat 64 (paddedLen n)).toNat = paddedLen n := by
  obtain ⟨-, hc, hb, -⟩ := hp
  have hle := paddedLen_le hc h
  exact (BitVec.toNat_ofNat _ _).trans (Nat.mod_eq_of_lt (by omega))

/-- A rule with one check that does not fail has passed it. -/
theorem checkedRule_inv {r : Except FaultCode State} {p : Prop} {u v : State} {c : FaultCode} (hok : p → r = .ok v)
    (herr : ¬ p → r = .error c) (h : r = .ok u) : p ∧ u = v := by
  by_cases hp : p
  · exact ⟨hp, Except.ok.inj (h.symm.trans (hok hp))⟩
  · exact nomatch h.symm.trans (herr hp)

theorem padRule_inv {s u : State} (h : padRule s = .ok u) :
    s.ilen.toNat < s.params.ibufCap ∧
      u = { s with ibuf := (padBytes s s.ilen.toNat).ibuf, plen := BitVec.ofNat 64 (paddedLen s.ilen.toNat) } :=
  checkedRule_inv padRule_ok (fun hc => padRule_error (Nat.not_lt.1 hc)) h

theorem xorbRule_inv {s u : State} (h : xorbRule s = .ok u) :
    168 * (s.blk.toNat + 1) ≤ s.plen.toNat ∧
      u = { s with a := xorRate s.a (blockWord s s.blk.toNat), blk := s.blk + 1 } :=
  checkedRule_inv xorbRule_ok (fun hc => xorbRule_error (Nat.not_le.1 hc)) h

theorem extbRule_inv {s u : State} (h : extbRule s = .ok u) :
    s.ocnt.toNat + 21 ≤ s.params.obufCapW ∧
      u = { s with obuf := s.obuf.storeBytes (8 * s.ocnt.toNat) (rateBytesOf s.a), ocnt := s.ocnt + 21 } :=
  checkedRule_inv extbRule_ok (fun hc => extbRule_error (Nat.not_le.1 hc)) h

theorem absorbRule_inv {s u : State} (h : absorbRule s = .ok u) :
    168 * (s.blk.toNat + 1) ≤ s.plen.toNat ∧
      u = { s with a := absorbLanes s s.blk.toNat s.a, b := permuteBuffer (xorRate s.a (blockWord s s.blk.toNat))
                   blk := s.blk + 1 } :=
  checkedRule_inv absorbRule_ok (fun hc => absorbRule_error (Nat.not_le.1 hc)) h

theorem squeezeRule_inv {s u : State} (h : squeezeRule s = .ok u) :
    s.ocnt.toNat + 21 ≤ s.params.obufCapW ∧
      u = { s with a := keccakF s.a, b := permuteBuffer s.a
                   obuf := s.obuf.storeBytes (8 * s.ocnt.toNat) (rateBytesOf s.a), ocnt := s.ocnt + 21 } :=
  checkedRule_inv squeezeRule_ok (fun hc => squeezeRule_error (Nat.not_le.1 hc)) h

/-- The state `HASH` leaves when it does not fault, but for `STATUS`: the counters are those of the padded message and
of the read-outs (R184). -/
def hashedState (s : State) (blk ocnt : Word) : State :=
  { s with
    a := shakeSqueezed (hashAbsorbed s).1 (readoutsNeeded s.olen.toNat)
    b := squeezeBuffer (hashAbsorbed s).1 (hashAbsorbed s).2 (readoutsNeeded s.olen.toNat)
    plen := BitVec.ofNat 64 (paddedLen s.ilen.toNat), blk := blk, ocnt := ocnt
    ibuf := (padBytes s s.ilen.toNat).ibuf
    obuf := s.obuf.storeBytes 0 (shakeStream (hashAbsorbed s).1 (readoutsNeeded s.olen.toNat)) }

/-- A `HASH` that does not fault has passed both checks. -/
theorem hashRule_inv {s u : State} (hp : s.params.wf) (h : hashRule s = .ok u) :
    s.ilen.toNat < s.params.ibufCap ∧ 21 * readoutsNeeded s.olen.toNat ≤ s.params.obufCapW ∧
      ∃ blk ocnt : Word, blk.toNat = paddedLen s.ilen.toNat / 168 ∧
        ocnt.toNat = 21 * readoutsNeeded s.olen.toNat ∧
        u = { hashedState s blk ocnt with status := { s.status with done := true } } := by
  by_cases hfault : s.params.ibufCap ≤ s.ilen.toNat ∨ s.params.obufCapW < 21 * readoutsNeeded s.olen.toNat
  · rw [hashRule_error hfault] at h
    cases h
  · obtain ⟨hi, ho⟩ := not_or.1 hfault
    obtain ⟨blk, ocnt, hblk, hocnt, hrule⟩ := hashRule_ok hp (Nat.not_le.1 hi) (Nat.not_lt.1 ho)
    rw [hrule] at h
    exact ⟨Nat.not_le.1 hi, Nat.not_lt.1 ho, blk, ocnt, hblk, hocnt, (Except.ok.inj h).symm⟩

/-- What `exec` can do: nothing but to `STATUS`, or what the rule of the command does. -/
theorem exec_cases {i : Instr} {s t : State} (h : exec i s = .next t) :
    (t = { s with status := t.status }) ∨
      (s.status.err = none ∧ ∃ u, ruleOf i (accepted s) = .ok u ∧ t = { u with status := finishStatus u.status }) := by
  rw [exec_eq_perform] at h
  rcases perform_cases h with ⟨-, -, rfl⟩ | ⟨he, hrule | ⟨_, -, rfl⟩⟩
  · exact .inl rfl
  · exact .inr ⟨he, hrule⟩
  · exact .inl rfl

/-- The `STATUS` a command leaves: the old one on a halted engine, otherwise that of a completion, or of a fault. -/
theorem exec_status {i : Instr} {s t : State} (h : exec i s = .next t) :
    (s.status.err ≠ none ∧ t.status = s.status) ∨ t.status = ⟨false, i == .hash, none⟩ ∨
      ∃ c, t.status = ⟨false, false, some c⟩ := by
  rw [exec_eq_perform] at h
  rcases perform_cases h with ⟨c, hc, rfl⟩ | ⟨-, ⟨u, hrule, rfl⟩ | ⟨c, -, rfl⟩⟩
  · exact .inl ⟨by simp [hc], rfl⟩
  · obtain ⟨w, -, rfl⟩ := ruleOf_keeps hrule
    exact .inr (.inl rfl)
  · exact .inr (.inr ⟨c, rfl⟩)

end Sys2Proof.Machine
end

section
/-! PROOF. The invariant (R43): it holds at reset, and every step keeps it. Its clauses on the capacities, the buffers
and the two counters say nothing of `STATUS`; a rule, which runs with `BUSY = 1`, keeps those. -/

namespace Sys2Proof.Machine

/-- The clauses of `Inv` that do not speak of `STATUS`. -/
structure BuffersInv (s : State) : Prop where
  capacities  : s.params.wf
  ibufSorted  : s.ibuf.wf
  obufSorted  : s.obuf.wf
  ibufInside  : ∀ c ∈ s.ibuf, c.1 < s.params.ibufCap
  obufInside  : ∀ c ∈ s.obuf, c.1 < 8 * s.params.obufCapW
  plenBlocks  : s.plen.toNat % 168 = 0
  plenFits    : s.plen.toNat ≤ s.params.ibufCap
  ocntBlocks  : s.ocnt.toNat % 21 = 0
  ocntFits    : s.ocnt.toNat ≤ s.params.obufCapW
  obufWritten : ∀ a, a < 8 * s.ocnt.toNat → (s.obuf.lookup a).isSome = true

theorem Inv.buffers {s : State} (h : Inv s) : BuffersInv s where
  __ := h

/-- The clauses of `Inv` on `STATUS` hold of the old `STATUS`, of a completion and of a fault entry. -/
theorem BuffersInv.inv {s t : State} (ht : BuffersInv t) (hs : Inv s)
    (hst : t.status = s.status ∨ ∃ d e, t.status = ⟨false, d, e⟩ ∧ (e ≠ none → d = false)) : Inv t where
  __ := ht
  idle := by
    rcases hst with hst | ⟨d, e, hst, -⟩
    · rw [hst, hs.idle]
    · rw [hst]
  haltedDone := by
    intro hh
    rcases hst with hst | ⟨d, e, hst, hd⟩
    · rw [hst]
      exact hs.haltedDone (by rwa [halted, ← hst])
    · rw [halted, hst] at hh
      rw [hst]
      exact hd (Option.isSome_iff_ne_none.1 hh)

/-- The clauses depend on the capacities, the buffers and the two counters alone. -/
theorem BuffersInv.congr {s t : State} (h : BuffersInv s) (hparams : t.params = s.params) (hibuf : t.ibuf = s.ibuf)
    (hobuf : t.obuf = s.obuf) (hplen : t.plen = s.plen) (hocnt : t.ocnt = s.ocnt) : BuffersInv t where
  capacities := hparams ▸ h.capacities
  ibufSorted := hibuf ▸ h.ibufSorted
  obufSorted := hobuf ▸ h.obufSorted
  ibufInside := by rw [hparams, hibuf]; exact h.ibufInside
  obufInside := by rw [hparams, hobuf]; exact h.obufInside
  plenBlocks := hplen ▸ h.plenBlocks
  plenFits := by rw [hparams, hplen]; exact h.plenFits
  ocntBlocks := hocnt ▸ h.ocntBlocks
  ocntFits := by rw [hparams, hocnt]; exact h.ocntFits
  obufWritten := by rw [hobuf, hocnt]; exact h.obufWritten

/-! ### Reset -/

theorem inv_atReset {p : Params} (hp : p.wf) (n : Nat) : Inv (State.atReset p n) where
  capacities := hp
  ibufSorted := List.Pairwise.nil
  obufSorted := List.Pairwise.nil
  ibufInside := fun _ hc => absurd hc List.not_mem_nil
  obufInside := fun _ hc => absurd hc List.not_mem_nil
  plenBlocks := rfl
  plenFits := Nat.zero_le _
  ocntBlocks := rfl
  ocntFits := Nat.zero_le _
  obufWritten := fun a ha => absurd ha (Nat.not_lt_zero a)
  idle := rfl
  haltedDone := fun _ => rfl

/-- Settles O20: the reset state with any admissible capacities, of which `State.reset` is one. -/
theorem invariantHoldsAtReset : Obligations.InvariantHoldsAtReset :=
  ⟨inv_atReset (by decide) 0, fun _ n hp => inv_atReset hp n⟩

/-! ### Updates of a buffer -/

/-- `PAD`'s writes end at a multiple of 168 that `IBUF` holds (R165). -/
theorem BuffersInv.padded {s t : State} (h : BuffersInv s) (hi : s.ilen.toNat < s.params.ibufCap)
    (hparams : t.params = s.params) (hibuf : t.ibuf = (padBytes s s.ilen.toNat).ibuf) (hobuf : t.obuf = s.obuf)
    (hplen : t.plen = BitVec.ofNat 64 (paddedLen s.ilen.toNat)) (hocnt : t.ocnt = s.ocnt) : BuffersInv t := by
  have hle : paddedLen s.ilen.toNat ≤ s.params.ibufCap := paddedLen_le h.capacities.2.1 hi
  have hpl : t.plen.toNat = paddedLen s.ilen.toNat := hplen ▸ toNat_ofNat_paddedLen h.capacities hi
  obtain ⟨-, -, hmod⟩ := paddedLen_bounds s.ilen.toNat
  exact {
    capacities := hparams ▸ h.capacities
    ibufSorted := hibuf ▸ wf_padBytes h.ibufSorted _
    obufSorted := hobuf ▸ h.obufSorted
    ibufInside := by rw [hparams, hibuf]; exact inside_padBytes h.ibufInside hle
    obufInside := by rw [hparams, hobuf]; exact h.obufInside
    plenBlocks := hpl ▸ hmod
    plenFits := by rw [hparams, hpl]; exact hle
    ocntBlocks := hocnt ▸ h.ocntBlocks
    ocntFits := by rw [hparams, hocnt]; exact h.ocntFits
    obufWritten := by rw [hobuf, hocnt]; exact h.obufWritten }

/-- A write of consecutive bytes lists them all, and unlists none. -/
theorem Memory.isSome_lookup_storeBytes {m : Memory} {o k : Nat} {bs : List Byte} (hk : k < o + bs.length)
    (h : k < o → (m.lookup k).isSome = true) : ((m.storeBytes o bs).lookup k).isSome = true := by
  rw [Memory.lookup_storeBytes]
  by_cases hok : o ≤ k
  · have hlt : k - o < bs.length := by omega
    simp [hok, List.getElem?_eq_getElem hlt]
  · rw [if_neg hok]
    exact h (Nat.not_le.1 hok)

/-- Whole read-outs appended from word `o` on, up to which `OBUF` is written (R170, R182). -/
theorem BuffersInv.appended {s t : State} (h : BuffersInv s) {o n : Nat} {bs : List Byte} (ho : o ≤ s.ocnt.toNat)
    (hmod : o % 21 = 0) (hlen : bs.length = 168 * n) (hfits : o + 21 * n ≤ s.params.obufCapW)
    (hparams : t.params = s.params) (hibuf : t.ibuf = s.ibuf) (hobuf : t.obuf = s.obuf.storeBytes (8 * o) bs)
    (hplen : t.plen = s.plen) (hocnt : t.ocnt.toNat = o + 21 * n) : BuffersInv t where
  capacities := hparams ▸ h.capacities
  ibufSorted := hibuf ▸ h.ibufSorted
  obufSorted := hobuf ▸ Memory.wf_storeBytes _ h.obufSorted _
  ibufInside := by rw [hparams, hibuf]; exact h.ibufInside
  obufInside := by rw [hparams, hobuf]; exact Memory.inside_storeBytes _ h.obufInside (by omega)
  plenBlocks := hplen ▸ h.plenBlocks
  plenFits := by rw [hparams, hplen]; exact h.plenFits
  ocntBlocks := by omega
  ocntFits := by rw [hparams, hocnt]; exact hfits
  obufWritten := by
    intro a ha
    rw [hobuf]
    exact Memory.isSome_lookup_storeBytes (by omega) fun hlt => h.obufWritten a (by omega)

theorem BuffersInv.stored {s : State} (h : BuffersInv s) {a : Nat} (ha : a < s.params.ibufCap) (b : Byte) :
    BuffersInv (writeIbuf s a b) where
  __ := h
  ibufSorted := Memory.wf_store h.ibufSorted a b
  ibufInside := Memory.inside_store h.ibufInside ha b

/-! ### Commands -/

/-- One read-out appended at word `OCNT`. -/
theorem BuffersInv.readOut {s t : State} (h : BuffersInv s) (hfits : s.ocnt.toNat + 21 ≤ s.params.obufCapW)
    (hparams : t.params = s.params) (hibuf : t.ibuf = s.ibuf)
    (hobuf : t.obuf = s.obuf.storeBytes (8 * s.ocnt.toNat) (rateBytesOf s.a)) (hplen : t.plen = s.plen)
    (hocnt : t.ocnt = s.ocnt + 21) : BuffersInv t := by
  obtain ⟨-, -, -, -, -, hcap⟩ := h.capacities
  exact h.appended (n := 1) le_rfl h.ocntBlocks (length_rateBytesOf _) hfits hparams hibuf hobuf hplen
    (hocnt ▸ toNat_add_21 hfits (by omega))

/-- `HASH` pads, and appends its read-outs from word 0 on. -/
theorem BuffersInv.hashed {s : State} (h : BuffersInv s) (hi : s.ilen.toNat < s.params.ibufCap)
    (ho : 21 * readoutsNeeded s.olen.toNat ≤ s.params.obufCapW) (blk : Word) {ocnt : Word}
    (hocnt : ocnt.toNat = 21 * readoutsNeeded s.olen.toNat) : BuffersInv (hashedState s blk ocnt) := by
  have hpad : BuffersInv { s with ibuf := (padBytes s s.ilen.toNat).ibuf
                                  plen := BitVec.ofNat 64 (paddedLen s.ilen.toNat) } :=
    h.padded hi rfl rfl rfl rfl rfl
  exact hpad.appended (o := 0) (Nat.zero_le _) rfl (length_shakeStream _ _) ((Nat.zero_add _).trans_le ho) rfl rfl
    rfl rfl (hocnt.trans (Nat.zero_add _).symm)

/-- A rule that does not fail keeps the clauses. -/
theorem ruleOf_keeps_buffersInv {i : Instr} {s u : State} (h : BuffersInv s) (hrule : ruleOf i s = .ok u) :
    BuffersInv u := by
  cases i with
  | theta | rhopi | chi =>
    obtain rfl := Except.ok.inj hrule
    exact h.congr rfl rfl rfl rfl rfl
  | iota r | round r =>
    obtain ⟨_, rfl⟩ := withRound_inv hrule
    exact h.congr rfl rfl rfl rfl rfl
  | permute =>
    obtain rfl := Except.ok.inj hrule
    rw [permuteState_eq]
    exact h.congr rfl rfl rfl rfl rfl
  | init =>
    obtain rfl := Except.ok.inj hrule
    exact { h with
      plenBlocks := rfl, plenFits := Nat.zero_le _, ocntBlocks := rfl, ocntFits := Nat.zero_le _
      obufWritten := fun a ha => absurd ha (Nat.not_lt_zero a) }
  | pad =>
    obtain ⟨hi, rfl⟩ := padRule_inv hrule
    exact h.padded hi rfl rfl rfl rfl rfl
  | xorb =>
    obtain ⟨-, rfl⟩ := xorbRule_inv hrule
    exact h.congr rfl rfl rfl rfl rfl
  | absorb =>
    obtain ⟨-, rfl⟩ := absorbRule_inv hrule
    exact h.congr rfl rfl rfl rfl rfl
  | extb =>
    obtain ⟨hfits, rfl⟩ := extbRule_inv hrule
    exact h.readOut hfits rfl rfl (by dsimp only) rfl rfl
  | squeeze =>
    obtain ⟨hfits, rfl⟩ := squeezeRule_inv hrule
    exact h.readOut hfits rfl rfl (by dsimp only) rfl rfl
  | hash =>
    obtain ⟨hi, ho, blk, ocnt, -, hocnt, rfl⟩ := hashRule_inv h.capacities hrule
    exact (h.hashed hi ho blk hocnt).congr rfl rfl rfl rfl rfl

theorem exec_keeps_buffersInv {i : Instr} {s t : State} (h : BuffersInv s) (hexec : exec i s = .next t) :
    BuffersInv t := by
  rcases exec_cases hexec with ht | ⟨-, u, hrule, rfl⟩
  · rw [ht]
    exact h.congr rfl rfl rfl rfl rfl
  · have hacc : BuffersInv (accepted s) := h.congr rfl rfl rfl rfl rfl
    exact (ruleOf_keeps_buffersInv hacc hrule).congr rfl rfl rfl rfl rfl

theorem exec_keeps_inv {i : Instr} {s t : State} (h : Inv s) (hexec : exec i s = .next t) : Inv t := by
  refine (exec_keeps_buffersInv h.buffers hexec).inv h ?_
  rcases exec_status hexec with ⟨-, hst⟩ | hst | ⟨c, hst⟩
  · exact .inl hst
  · exact .inr ⟨_, _, hst, fun hne => absurd rfl hne⟩
  · exact .inr ⟨_, _, hst, fun _ => rfl⟩

/-! ### The host's moves -/

/-- `Inv` does not speak of what stands in `A`, `B`, `ILEN`, `OLEN`, `BLK`, nor of the host's side. -/
theorem Inv.congr {s t : State} (h : Inv s) (hparams : t.params = s.params) (hibuf : t.ibuf = s.ibuf)
    (hobuf : t.obuf = s.obuf) (hplen : t.plen = s.plen) (hocnt : t.ocnt = s.ocnt) (hst : t.status = s.status) :
    Inv t :=
  (h.buffers.congr hparams hibuf hobuf hplen hocnt).inv h (.inl hst)

theorem Inv.raiseFault {s : State} (h : Inv s) (c : FaultCode) : Inv (raiseFault c s) :=
  BuffersInv.inv (h.buffers.congr rfl rfl rfl rfl rfl) h (.inr ⟨_, _, rfl, fun _ => rfl⟩)

theorem Inv.outOfRange {s : State} (h : Inv s) : Inv (outOfRange s) := by
  unfold Machine.outOfRange
  split
  · exact h
  · exact h.raiseFault .index

theorem Inv.writeReg {s : State} (h : Inv s) (n : Nat) (v : Word) : Inv (writeReg s n v) := by
  unfold Machine.writeReg
  split_ifs <;> exact h.congr rfl rfl rfl rfl rfl rfl

theorem Inv.hostWriteIbuf {s : State} (h : Inv s) (a : Nat) (b : Byte) : Inv (hostWriteIbuf a b s) := by
  unfold Machine.hostWriteIbuf
  split_ifs with hh hcap
  · exact h
  · exact h.raiseFault .index
  · exact (h.buffers.stored (Nat.not_le.1 hcap) b).inv h (.inl rfl)

theorem Inv.hostReadIbuf {s : State} (h : Inv s) (a : Nat) : Inv (hostReadIbuf a s).2 := by
  unfold Machine.hostReadIbuf
  split
  · exact h.outOfRange
  · exact h

theorem Inv.hostReadObuf {s : State} (h : Inv s) (a : Nat) : Inv (hostReadObuf a s).2 := by
  unfold Machine.hostReadObuf
  split
  · exact h.outOfRange
  · exact h

/-- What a read returns is not part of the invariant. -/
theorem Inv.withReply {s : State} (h : Inv s) (r : Option Reply) : Inv { s with reply := r } :=
  h.congr rfl rfl rfl rfl rfl rfl

theorem hostMove_keeps_inv {m : HostMove} {s t : State} (h : Inv s) (hmove : hostMove m s = .next t) : Inv t := by
  rcases hostMove_cases hmove with ⟨n, v, -, hwrite⟩ | ⟨n, -, rfl⟩ | ⟨a, b, -, rfl⟩ | ⟨a, -, rfl⟩ | ⟨a, -, rfl⟩ |
    ⟨-, rfl⟩
  · rcases hwrite with ⟨-, rfl⟩ | ⟨-, -, i, -, hexec⟩ | ⟨-, -, -, rfl⟩ | ⟨-, -, rfl⟩
    · exact h
    · exact exec_keeps_inv h hexec
    · exact h.raiseFault .illegalCmd
    · exact h.writeReg n v
  · exact h.withReply _
  · exact h.hostWriteIbuf a b
  · exact (h.hostReadIbuf a).withReply _
  · exact (h.hostReadObuf a).withReply _
  · exact (inv_atReset h.capacities (s.resets + 1)).congr rfl rfl rfl rfl rfl rfl

/-- Settles O21: a step is idle, or a move of the host on the state with that move taken. -/
theorem everyStepKeepsTheInvariant : Obligations.EveryStepKeepsTheInvariant := by
  intro s t h hstep
  rcases step_cases hstep with ⟨-, rfl⟩ | ⟨m, rest, -, hmove⟩
  · exact h
  · have htaken : Inv { s with inbox := rest, reply := none } := h.congr rfl rfl rfl rfl rfl rfl
    exact hostMove_keeps_inv htaken hmove

end Sys2Proof.Machine
end

section
/-! PROOF. The laws of the lane operators (R136), the linearity of theta, and the ROMs (R26, R27). -/

namespace Sys2Proof.Machine

/-! ### The lane operators -/

/-- A bit of a rotated lane, by its own position: it comes from `n` places below, modulo 64. -/
theorem getLsbD_rotl64_source (a : Word) {n i : Nat} (hn : n < 64) (hi : i < 64) :
    (rotl64 a n).getLsbD i = a.getLsbD ((i + (64 - n)) % 64) := by
  have hpos : ((i + (64 - n)) % 64 + n) % 64 = i := by omega
  have h := getLsbD_rotl64 a hn (Nat.mod_lt (i + (64 - n)) (by decide))
  rwa [hpos] at h

theorem rotl64_xor (a b : Word) {n : Nat} (hn : n < 64) : rotl64 (a ^^^ b) n = rotl64 a n ^^^ rotl64 b n := by
  apply BitVec.eq_of_getLsbD_eq
  intro i hi
  simp only [BitVec.getLsbD_xor, getLsbD_rotl64_source _ hn hi]

/-- Rotating on by the complement of `n` completes a whole turn. -/
theorem rotl64_rotl64_complement (a : Word) {n : Nat} (hn : n < 64) : rotl64 (rotl64 a n) ((64 - n) % 64) = a := by
  apply BitVec.eq_of_getLsbD_eq
  intro i hi
  have hturn : ((i + (64 - (64 - n) % 64)) % 64 + (64 - n)) % 64 = i := by omega
  rw [getLsbD_rotl64_source _ (Nat.mod_lt _ (by decide)) hi,
    getLsbD_rotl64_source _ hn (Nat.mod_lt _ (by decide)), hturn]

/-- Settles O29: the laws of the bitwise operators are the library's, those of `rotl64` are of its map of bits. -/
theorem laneOperatorLaws : Obligations.LaneOperatorLaws := fun a b c =>
  ⟨BitVec.xor_comm a b, BitVec.xor_assoc a b c, BitVec.xor_zero, BitVec.xor_self, by decide, BitVec.not_not,
    (BitVec.and_comm _ a).trans (BitVec.and_not_self a), fun _ hn => rotl64_xor a b (Nat.lt_succ_of_le hn),
    fun n hn => ⟨(64 - n) % 64, by omega, rotl64_rotl64_complement a (Nat.lt_succ_of_le hn)⟩⟩

/-! ### Theta -/

section
variable {l m n : Lanes} (h : ∀ x y, laneAt n x y = laneAt l x y ^^^ laneAt m x y)
include h

theorem columnParity_xor (x : Fin 5) : columnParity n x = columnParity l x ^^^ columnParity m x := by
  simp only [columnParity, h]
  ac_rfl

theorem thetaTerm_xor (x : Fin 5) : thetaTerm n x = thetaTerm l x ^^^ thetaTerm m x := by
  simp only [thetaTerm, columnParity_xor h, rotl64_xor _ _ (n := 1) (by decide)]
  ac_rfl

/-- Theta is linear, because column parities and rotations are. -/
theorem thetaLanes_xor (x y : Fin 5) :
    laneAt (thetaLanes n) x y = laneAt (thetaLanes l) x y ^^^ laneAt (thetaLanes m) x y := by
  simp only [laneAt_thetaLanes, h, thetaTerm_xor h]
  ac_rfl

end

/-- Settles O33: `THETA` leaves the theta of `A`. -/
theorem thetaIsLinear : Obligations.ThetaIsLinear := by
  intro s1 s2 s3 t1 t2 t3 he1 he2 he3 hxor h1 h2 h3
  obtain rfl := next_unique h1 (exec_theta he1)
  obtain rfl := next_unique h2 (exec_theta he2)
  obtain rfl := next_unique h3 (exec_theta he3)
  exact thetaLanes_xor hxor

/-! ### The ROMs -/

/-- Settles O30: both tables are finite, and every clause is read off them. -/
theorem romsAreAsTheSpecSays : Obligations.RomsAreAsTheSpecSays := by
  unfold Obligations.RomsAreAsTheSpecSays
  refine ⟨rfl, rfl, rfl, rfl, rfl, rfl, rfl, rfl, ?feedback, ?walk, rfl, rfl, rfl, ?offsetsDistinct, ?offsetsBounded,
    ?constantBits, rfl, rfl, ?constantsDistinct⟩
  all_goals decide +kernel

end Sys2Proof.Machine
end

section
/-! PROOF. The register `STATUS` as a word (R34, R200), and an engine with `BUSY = 1` (R77). -/

namespace Sys2Proof.Machine

/-! ### The bits of `STATUS` -/

/-- The word's parts from bit 0 upwards: `BUSY`, `DONE`, six zero bits, the code in bits 15:8, zero bits. -/
theorem getLsbD_statusWord (st : Status) (k : Nat) :
    (statusWord st).getLsbD k =
      if k = 0 then st.busy else if k = 1 then st.done
      else if 8 ≤ k ∧ k < 16 then (errCode st.err).getLsbD (k - 8) else false := by
  simp only [statusWord, BitVec.getLsbD_append, BitVec.getLsbD_zero, BitVec.getLsbD_ofBool]
  rcases k with - | - | k
  · simp
  · simp
  · rcases lt_or_ge (k + 2) 8 with hlow | hlow
    · simp [hlow, Nat.not_le.2 hlow]
    · have hcode : k - 6 < 8 ↔ k + 1 + 1 < 16 := by omega
      simp [hlow, Nat.not_lt.2 hlow, hcode]

/-- Settles O10: the fields of the word, and the code as a number. -/
theorem statusWordHasItsFields : Obligations.StatusWordHasItsFields := by
  intro st k _
  rw [getLsbD_statusWord]
  rcases st.err with - | (- | - | -) <;> rfl

theorem extractLsb'_statusWord_err (st : Status) : (statusWord st).extractLsb' 8 8 = errCode st.err := by
  apply BitVec.eq_of_getLsbD_eq
  intro i hi
  have h1 : 8 + i ≠ 1 := by omega
  have h16 : 8 + i < 16 := by omega
  rw [BitVec.getLsbD_extractLsb', getLsbD_statusWord]
  simp [hi, h1, h16]

/-! ### `BUSY = 1` -/

theorem issue_busy {s : State} (hb : s.status.busy = true) {m : HostMove} (hm : allowedWhileBusy m = false) :
    issue m s = .refused .hostMoveWhileBusy := by
  simp [issue_eq_hostMove, hostMove, hb, hm]

/-- Settles O15: the one transaction with a meaning is the read of `STATUS`, whose bits are the fields. -/
theorem busyEngineAnswersOnlyStatus : Obligations.BusyEngineAnswersOnlyStatus := by
  intro s hb
  refine ⟨fun n v => issue_busy hb rfl, fun n hn => issue_busy hb ?other, fun a b => issue_busy hb rfl,
    fun a => issue_busy hb rfl, fun a => issue_busy hb rfl, fun hd => ⟨_, issue_readReg_status s, ?busy, ?done,
      extractLsb'_statusWord_err s.status⟩⟩
  case other => simpa [allowedWhileBusy] using hn
  case busy => rw [getLsbD_statusWord, if_pos rfl, hb]
  case done => rw [getLsbD_statusWord, if_neg (by decide), if_pos rfl, hd]

end Sys2Proof.Machine
end

section
/-! PROOF. The step with and without a pending move (R110, R224), reset (R41, R230), and the host's access to the
buffers (R43, R73, R75). -/

namespace Sys2Proof.Machine

/-! ### The step -/

/-- Settles O5: the pending move is the write of a legal value to `CMD`. -/
theorem stepRunsTheDecodedCommand : Obligations.StepRunsTheDecodedCommand := by
  intro s v i rest hinbox hb he hd
  rw [step_cons hinbox]
  exact issue_command (s := { s with inbox := rest }) hb he hd

/-- Settles O7: nothing is pending. -/
theorem idleEngineHoldsItsState : Obligations.IdleEngineHoldsItsState := fun _ => step_nil

/-! ### Reset -/

/-- Settles O16: every field but the capacities, the reset count and the pending moves is at one value in every state
after reset, whatever these three are. -/
theorem resetLeavesTheResetValues : Obligations.ResetLeavesTheResetValues := by
  unfold Obligations.ResetLeavesTheResetValues
  intro holds
  have hstatus : statusWord ⟨false, false, none⟩ = 0 := by decide
  have hreset (p : Params) (n : Nat) (ms : List HostMove) : holds { State.atReset p n with inbox := ms } :=
    ⟨fun x y => ⟨laneAt_zeroLanes x y, laneAt_zeroLanes x y⟩, rfl, rfl, rfl, rfl, rfl, rfl, rfl, rfl, hstatus,
      fun _ => ⟨rfl, rfl⟩, fun _ => ⟨rfl, rfl⟩⟩
  exact ⟨hreset _ 0 [], fun s => ⟨_, issue_reset s, hreset _ _ s.inbox, rfl, rfl, rfl, rfl⟩⟩

/-! ### The buffers -/

theorem ibufByte_writeIbuf (s : State) (a k : Nat) (b : Byte) :
    ibufByte (writeIbuf s a b) k = if k = a then b else ibufByte s k := by
  rw [ibufByte, writeIbuf_ibuf, Memory.lookup_store]
  split <;> rfl

/-- Settles O11: the halted engine, the address out of range, and the byte stored. -/
theorem hostWriteIbufWritesOneByte : Obligations.HostWriteIbufWritesOneByte := by
  intro s a b hb
  refine ⟨fun he => issue_writeIbuf_halted hb he a b, fun he ha => issue_writeIbuf_outside hb he ha b, fun he ha =>
    ⟨_, issue_writeIbuf_inside hb he ha b, ?written, fun k hk => ?others, fun hw => Memory.wf_store hw a b, rfl⟩⟩
  case written => rw [ibufByte_writeIbuf, if_pos rfl]
  case others => rw [ibufByte_writeIbuf, if_neg hk]; rfl

/-- Settles O22: the window ends at `8 * OCNT` at the latest, and below that every byte is listed. -/
theorem windowShowsOnlyWrittenBytes : Obligations.WindowShowsOnlyWrittenBytes := by
  intro s a h ha
  have hocnt : a < 8 * s.ocnt.toNat := ha.trans_le (Nat.min_le_right _ _)
  obtain ⟨b, hlookup⟩ := Option.isSome_iff_exists.1 (h.obufWritten a hocnt)
  refine ⟨b, hlookup, ?_⟩
  rw [issue_readObuf_inside h.idle ha, obufByte, hlookup, Option.getD_some]

end Sys2Proof.Machine
end

section
/-! PROOF. What a command leaves alone (R28, R29, R36, R38): one record equation per command, which names the fields
the command may write. -/

namespace Sys2Proof.Machine

theorem ibufByte_of_lookup {s t : State} {k : Nat} (hr : t.resets = s.resets) (h : t.ibuf.lookup k = s.ibuf.lookup k) :
    ibufByte t k = ibufByte s k := by
  rw [ibufByte, ibufByte, h, hr]

theorem obufByte_of_lookup {s t : State} {k : Nat} (hr : t.resets = s.resets) (h : t.obuf.lookup k = s.obuf.lookup k) :
    obufByte t k = obufByte s k := by
  rw [obufByte, obufByte, h, hr]

/-! ### What no command writes -/

theorem Keeps.withStatus {s u : State} (h : Keeps s u) (st : Status) :
    Keeps { s with status := st } { u with status := st } where
  __ := h
  status := rfl

/-- Every command, faulting or not, halted or not, keeps everything but `STATUS` and the fields commands write. -/
theorem exec_keeps {i : Instr} {s t : State} (h : exec i s = .next t) : Keeps { s with status := t.status } t := by
  rcases exec_cases h with ht | ⟨-, u, hrule, rfl⟩
  · rw [← ht]
    exact Keeps.refl t
  · obtain ⟨w, hkeeps, rfl⟩ := ruleOf_keeps hrule
    exact hkeeps.withStatus _

/-- Settles O25: the lengths are kept, and so is what `IBUF` lists below `ILEN`. -/
theorem noCommandWritesTheHostsInputs : Obligations.NoCommandWritesTheHostsInputs := by
  intro i s t h
  have hkeeps := exec_keeps h
  exact ⟨hkeeps.ilen, hkeeps.olen, fun a ha => ibufByte_of_lookup hkeeps.resets (hkeeps.message a ha)⟩

/-! ### What each command writes -/

/-- The column 'written by commands' of R36, with the two buffers and the composites: `u` is `s` but for the fields
that `i` writes. -/
def WritesOnly (i : Instr) (s u : State) : Prop :=
  match i with
  | .theta | .chi | .iota _ => u = { s with a := u.a }
  | .rhopi => u = { s with b := u.b }
  | .round _ | .permute => u = { s with a := u.a, b := u.b }
  | .init => u = { s with a := u.a, b := u.b, plen := u.plen, blk := u.blk, ocnt := u.ocnt }
  | .pad => u = { s with ibuf := u.ibuf, plen := u.plen }
  | .xorb => u = { s with a := u.a, blk := u.blk }
  | .extb => u = { s with obuf := u.obuf, ocnt := u.ocnt }
  | .absorb => u = { s with a := u.a, b := u.b, blk := u.blk }
  | .squeeze => u = { s with a := u.a, b := u.b, obuf := u.obuf, ocnt := u.ocnt }
  | .hash => u = { s with a := u.a, b := u.b, plen := u.plen, blk := u.blk, ocnt := u.ocnt, status := u.status,
                          ibuf := u.ibuf, obuf := u.obuf }

theorem WritesOnly.refl (i : Instr) (s : State) : WritesOnly i s s := by
  cases i <;> rfl

theorem WritesOnly.withStatus {i : Instr} {s u : State} (h : WritesOnly i s u) (st : Status) :
    WritesOnly i { s with status := st } { u with status := st } := by
  cases i <;> exact congrArg (fun v : State => { v with status := st }) h

theorem ruleOf_writesOnly {i : Instr} {s u : State} (hrule : ruleOf i s = .ok u) : WritesOnly i s u := by
  cases i with
  | theta | rhopi | chi | init =>
    obtain rfl := Except.ok.inj hrule
    rfl
  | iota r | round r =>
    obtain ⟨_, rfl⟩ := withRound_inv hrule
    rfl
  | permute =>
    obtain rfl := Except.ok.inj hrule
    rw [permuteState_eq]
    rfl
  | pad => obtain ⟨-, rfl⟩ := padRule_inv hrule; rfl
  | xorb => obtain ⟨-, rfl⟩ := xorbRule_inv hrule; rfl
  | extb => obtain ⟨-, rfl⟩ := extbRule_inv hrule; dsimp only [WritesOnly]
  | absorb => obtain ⟨-, rfl⟩ := absorbRule_inv hrule; rfl
  | squeeze => obtain ⟨-, rfl⟩ := squeezeRule_inv hrule; dsimp only [WritesOnly]
  | hash =>
    obtain ⟨w, ⟨hparams, hilen, holen, hresets, hinbox, hreply, -, -⟩, rfl⟩ := ruleOf_keeps hrule
    simp only [WritesOnly, ← hparams, ← hilen, ← holen, ← hresets, ← hinbox, ← hreply]

theorem exec_writesOnly {i : Instr} {s t : State} (h : exec i s = .next t) :
    WritesOnly i { s with status := t.status } t := by
  rcases exec_cases h with ht | ⟨-, u, hrule, rfl⟩
  · rw [← ht]
    exact WritesOnly.refl i t
  · exact (ruleOf_writesOnly hrule).withStatus _

section
variable {i : Instr} {s u : State} (h : WritesOnly i s u)
include h

theorem WritesOnly.a_eq (hi : i = .rhopi ∨ i = .pad ∨ i = .extb) : u.a = s.a := by
  rcases hi with rfl | rfl | rfl <;> exact (congrArg State.a h).trans rfl

theorem WritesOnly.b_eq
    (hi : i = .theta ∨ i = .chi ∨ (∃ r, i = .iota r) ∨ i = .pad ∨ i = .xorb ∨ i = .extb) : u.b = s.b := by
  rcases hi with rfl | rfl | ⟨r, rfl⟩ | rfl | rfl | rfl <;> exact (congrArg State.b h).trans rfl

theorem WritesOnly.plen_eq (hinit : i ≠ .init) (hpad : i ≠ .pad) (hhash : i ≠ .hash) : u.plen = s.plen := by
  cases i with
  | init | pad | hash => contradiction
  | _ => exact (congrArg State.plen h).trans rfl

theorem WritesOnly.blk_eq (hinit : i ≠ .init) (hxorb : i ≠ .xorb) (habsorb : i ≠ .absorb) (hhash : i ≠ .hash) :
    u.blk = s.blk := by
  cases i with
  | init | xorb | absorb | hash => contradiction
  | _ => exact (congrArg State.blk h).trans rfl

theorem WritesOnly.ocnt_eq (hinit : i ≠ .init) (hextb : i ≠ .extb) (hsqueeze : i ≠ .squeeze) (hhash : i ≠ .hash) :
    u.ocnt = s.ocnt := by
  cases i with
  | init | extb | squeeze | hash => contradiction
  | _ => exact (congrArg State.ocnt h).trans rfl

theorem WritesOnly.ibuf_eq (hpad : i ≠ .pad) (hhash : i ≠ .hash) : u.ibuf = s.ibuf := by
  cases i with
  | pad | hash => contradiction
  | _ => exact (congrArg State.ibuf h).trans rfl

theorem WritesOnly.obuf_eq (hextb : i ≠ .extb) (hsqueeze : i ≠ .squeeze) (hhash : i ≠ .hash) : u.obuf = s.obuf := by
  cases i with
  | extb | squeeze | hash => contradiction
  | _ => exact (congrArg State.obuf h).trans rfl

end

/-- A command other than `HASH` that finds no fault and leaves none leaves `STATUS` zero (R110). -/
theorem exec_status_idle {i : Instr} {s t : State} (h : exec i s = .next t) (hi : i ≠ .hash)
    (ht : t.status.err = none) (hs : s.status.err = none) : t.status = idleStatus := by
  rcases exec_status h with ⟨hne, -⟩ | hst | ⟨c, hst⟩
  · exact absurd hs hne
  · rw [hst, beq_eq_false_iff_ne.2 hi, idleStatus]
  · rw [hst] at ht
    cases ht

/-- Settles O26: the fields are read off the record equation of each command. -/
theorem commandFrames : Obligations.CommandFrames := by
  intro i s t h
  have hkeeps := exec_keeps h
  have hwrites := exec_writesOnly h
  refine ⟨hwrites.a_eq, hwrites.b_eq, hwrites.plen_eq, hwrites.blk_eq, hwrites.ocnt_eq, fun hpad hhash k => ?ibuf,
    fun hextb hsqueeze hhash k => ?obuf, exec_status_idle h, hkeeps.params, hkeeps.resets, hkeeps.inbox, hkeeps.reply⟩
  case ibuf => exact ibufByte_of_lookup hkeeps.resets (congrArg (Memory.lookup · k) (hwrites.ibuf_eq hpad hhash))
  case obuf =>
    exact obufByte_of_lookup hkeeps.resets (congrArg (Memory.lookup · k) (hwrites.obuf_eq hextb hsqueeze hhash))

/-! ### The bound on `BLK` -/

/-- The bound of R43 on `BLK`, which a `PAD` at a lowered length can break. -/
def BlkBound (s : State) : Prop := 168 * s.blk.toNat ≤ s.plen.toNat

theorem BlkBound.congr {s t : State} (h : BlkBound s) (hplen : t.plen = s.plen) (hblk : t.blk = s.blk) :
    BlkBound t := by
  rwa [BlkBound, hplen, hblk]

/-- The next block, absorbed, is one of the blocks below `PLEN`. -/
theorem BlkBound.next_block {s t : State} (h : 168 * (s.blk.toNat + 1) ≤ s.plen.toNat) (hplen : t.plen = s.plen)
    (hblk : t.blk = s.blk + 1) : BlkBound t := by
  have hnext : (s.blk + 1).toNat = s.blk.toNat + 1 := toNat_add_one (m := s.plen.toNat) (by omega) s.plen.isLt
  rwa [BlkBound, hplen, hblk, hnext]

theorem ruleOf_keeps_blkBound {i : Instr} {s u : State} (hp : s.params.wf) (h : BlkBound s)
    (hpad : i = .pad → s.plen.toNat ≤ paddedLen s.ilen.toNat) (hrule : ruleOf i s = .ok u) : BlkBound u := by
  cases i with
  | init =>
    obtain rfl := Except.ok.inj hrule
    exact Nat.zero_le _
  | pad =>
    obtain ⟨hi, rfl⟩ := padRule_inv hrule
    exact (h.trans (hpad rfl)).trans_eq (toNat_ofNat_paddedLen hp hi).symm
  | xorb =>
    obtain ⟨hb, rfl⟩ := xorbRule_inv hrule
    exact BlkBound.next_block hb rfl rfl
  | absorb =>
    obtain ⟨hb, rfl⟩ := absorbRule_inv hrule
    exact BlkBound.next_block hb rfl rfl
  | hash =>
    obtain ⟨hi, -, blk, ocnt, hblk, -, rfl⟩ := hashRule_inv hp hrule
    have hblocks : 168 * blk.toNat ≤ paddedLen s.ilen.toNat := by rw [hblk]; exact Nat.mul_div_le _ _
    exact hblocks.trans_eq (toNat_ofNat_paddedLen hp hi).symm
  | _ =>
    have hwrites := ruleOf_writesOnly hrule
    exact h.congr ((congrArg State.plen hwrites).trans rfl) ((congrArg State.blk hwrites).trans rfl)

/-- Settles O27: nothing but `STATUS` has changed, or the rule of the command has run and kept the bound. -/
theorem blkBoundIsKeptExceptByPad : Obligations.BlkBoundIsKeptExceptByPad := by
  intro i s t hp hexec h hpad
  rcases exec_cases hexec with ht | ⟨-, u, hrule, rfl⟩
  · rw [ht]
    exact h
  · exact (ruleOf_keeps_blkBound (s := accepted s) hp h hpad hrule).congr rfl rfl

end Sys2Proof.Machine
end

section
/-! PROOF. The padded input is specified (R43), and what sets `DONE` (R34). -/

namespace Sys2Proof.Machine

/-- The padding writes list every byte from `n` up to the padded length. -/
theorem isSome_lookup_padBytes {s : State} {n k : Nat} (hk : k < paddedLen n)
    (h : k < n → (s.ibuf.lookup k).isSome = true) : ((padBytes s n).ibuf.lookup k).isSome = true := by
  rw [lookup_padBytes]
  split
  · rfl
  split
  · rfl
  split
  · rfl
  · exact h (by omega)

/-- Settles O23: the message is listed, and the padding writes list the rest. -/
theorem paddedInputIsSpecified : Obligations.PaddedInputIsSpecified := by
  intro s t hp he hi hmessage hexec k hk
  obtain rfl := next_unique hexec (exec_pad he hi)
  exact isSome_lookup_padBytes (hk.trans_eq (toNat_ofNat_paddedLen hp hi)) (hmessage k)

/-! ### `DONE` -/

theorem done_of_outOfRange {s : State} (h : (outOfRange s).status.done = true) : s.status.done = true := by
  unfold outOfRange at h
  split at h
  · exact h
  · cases h

theorem done_of_hostWriteIbuf {s : State} {a : Nat} {b : Byte} (h : (hostWriteIbuf a b s).status.done = true) :
    s.status.done = true := by
  unfold hostWriteIbuf at h
  split_ifs at h
  · exact h
  · cases h
  · exact h

theorem done_of_hostReadIbuf {s : State} {a : Nat} (h : (hostReadIbuf a s).2.status.done = true) :
    s.status.done = true := by
  unfold hostReadIbuf at h
  split at h
  · exact done_of_outOfRange h
  · exact h

theorem done_of_hostReadObuf {s : State} {a : Nat} (h : (hostReadObuf a s).2.status.done = true) :
    s.status.done = true := by
  unfold hostReadObuf at h
  split at h
  · exact done_of_outOfRange h
  · exact h

/-- A command performed without a fault before it leaves `DONE = 1` only if it is `HASH`. -/
theorem eq_hash_of_exec_done {i : Instr} {s t : State} (hexec : exec i s = .next t) (he : s.status.err = none)
    (hdone : t.status.done = true) : i = .hash := by
  rcases exec_status hexec with ⟨hne, -⟩ | hst | ⟨c, hst⟩
  · exact absurd he hne
  · rw [hst] at hdone
    exact eq_of_beq hdone
  · rw [hst] at hdone
    cases hdone

/-- A write to `CMD` that is performed is a command; every other move leaves `DONE` or clears it. -/
theorem hostMove_done {m : HostMove} {s t : State} (h : hostMove m s = .next t) (hdone : t.status.done = true) :
    (m = .writeReg 0 (encodeCmd .hash) ∧ s.status.err = none) ∨
      (s.status.done = true ∧ (s.status.err = none → ∀ v, m ≠ .writeReg 0 v)) := by
  rcases hostMove_cases h with ⟨n, v, rfl, hwrite⟩ | ⟨n, rfl, rfl⟩ | ⟨a, b, rfl, rfl⟩ | ⟨a, rfl, rfl⟩ |
    ⟨a, rfl, rfl⟩ | ⟨-, rfl⟩
  · rcases hwrite with ⟨hhalted, rfl⟩ | ⟨hhalted, rfl, i, hd, hexec⟩ | ⟨-, -, -, rfl⟩ | ⟨-, hn, rfl⟩
    · exact .inr ⟨hdone, fun he => absurd he (Option.isSome_iff_ne_none.1 hhalted)⟩
    · have he : s.status.err = none := Option.isNone_iff_eq_none.1 (Option.isSome_eq_false_iff.1 hhalted)
      obtain rfl := eq_hash_of_exec_done hexec he hdone
      exact .inl ⟨by rw [(decodeCmd_eq_ok_iff.1 hd).2], he⟩
    · cases hdone
    · exact .inr ⟨by simpa using hdone, by simp [hn]⟩
  · exact .inr ⟨hdone, fun _ _ => nofun⟩
  · exact .inr ⟨done_of_hostWriteIbuf hdone, fun _ _ => nofun⟩
  · exact .inr ⟨done_of_hostReadIbuf hdone, fun _ _ => nofun⟩
  · exact .inr ⟨done_of_hostReadObuf hdone, fun _ _ => nofun⟩
  · cases hdone

/-- Settles O24: a move issued is a move performed, with nothing returned yet. -/
theorem onlyHashSetsDone : Obligations.OnlyHashSetsDone := fun _ s _ _ =>
  hostMove_done (s := { s with reply := none })

end Sys2Proof.Machine
end

section
/-! PROOF. The output of `HASH` (R188, R242), and what it depends on (R42). -/

namespace Sys2Proof.Machine

/-! ### SHAKE128 -/

theorem shake128_eq_take_shake128 (msg : List Byte) {l1 l2 : Nat} (h : l1 ≤ l2) :
    shake128 msg l1 = (shake128 msg l2).take l1 := by
  have hfewer : ((l1 + 7) / 8 + 20) / 21 ≤ ((l2 + 7) / 8 + 20) / 21 := by omega
  rw [shake128_eq_take msg hfewer, shake128, List.take_take, Nat.min_eq_left h]

/-- Settles O50: the length of an output, and both outputs as beginnings of one stream. -/
theorem shake128LengthAndPrefix : Obligations.Shake128LengthAndPrefix := fun msg l1 _ =>
  ⟨length_shake128_eq msg l1, shake128_eq_take_shake128 msg⟩

/-! ### The window over the output stream -/

/-- Bytes stored from address 0 on are read back. -/
theorem obufByte_of_stored {t : State} {m : Memory} {bs : List Byte} (ht : t.obuf = m.storeBytes 0 bs) {k : Nat}
    (hk : k < bs.length) : obufByte t k = bs[k] := by
  rw [obufByte, ht, Memory.lookup_storeBytes, if_pos (Nat.zero_le k), Nat.sub_zero, List.getElem?_eq_getElem hk]
  rfl

theorem map_obufByte_of_stored {t : State} {m : Memory} {bs : List Byte} (ht : t.obuf = m.storeBytes 0 bs)
    {len : Nat} (hlen : len ≤ bs.length) : (List.range len).map (obufByte t) = bs.take len := by
  refine List.ext_getElem ?length fun k hk _ => ?byte
  case length => simp [hlen]
  case byte =>
    have hk' : k < bs.length := by simp at hk; omega
    rw [List.getElem_map, List.getElem_range, List.getElem_take, obufByte_of_stored ht hk']

/-- What a `HASH` that does not fault leaves, as one state (R184). -/
theorem exec_hash_inv {s t : State} (hp : s.params.wf) (he : s.status.err = none) (h : exec .hash s = .next t)
    (ht : t.status.err = none) :
    s.ilen.toNat < s.params.ibufCap ∧ 21 * readoutsNeeded s.olen.toNat ≤ s.params.obufCapW ∧
      ∃ blk ocnt : Word, blk.toNat = paddedLen s.ilen.toNat / 168 ∧
        ocnt.toNat = 21 * readoutsNeeded s.olen.toNat ∧
        t = { hashedState s blk ocnt with status := ⟨false, true, none⟩ } := by
  by_cases hfault : s.params.ibufCap ≤ s.ilen.toNat ∨ s.params.obufCapW < 21 * readoutsNeeded s.olen.toNat
  · rw [next_unique h (exec_hash_fault he hfault)] at ht
    cases ht
  · obtain ⟨hi, ho⟩ := not_or.1 hfault
    obtain ⟨blk, ocnt, hblk, hocnt, hhash⟩ := exec_hash he hp (Nat.not_le.1 hi) (Nat.not_lt.1 ho)
    exact ⟨Nat.not_le.1 hi, Nat.not_lt.1 ho, blk, ocnt, hblk, hocnt, next_unique h hhash⟩

/-- The bytes below any length up to `8 * OCNT` are SHAKE128 of the message at that length. -/
theorem map_obufByte_hashedState (s : State) {t : State}
    (ht : t.obuf = s.obuf.storeBytes 0 (shakeStream (hashAbsorbed s).1 (readoutsNeeded s.olen.toNat))) {len : Nat}
    (hlen : len ≤ 168 * readoutsNeeded s.olen.toNat) :
    (List.range len).map (obufByte t) = shake128 (message s) len := by
  have henough : ((len + 7) / 8 + 20) / 21 ≤ readoutsNeeded s.olen.toNat := by omega
  rw [shake128_eq_take _ henough, map_obufByte_of_stored ht (by rwa [length_shakeStream]), hashAbsorbed_fst]

/-- Settles O52: the write changes `OLEN` alone, and the stream below `8 * OCNT` stands in `OBUF` already. -/
theorem windowFollowsOlen : Obligations.WindowFollowsOlen := by
  intro s t len hinv he hexec ht hlen
  obtain ⟨-, -, blk, ocnt, -, hocnt, rfl⟩ := exec_hash_inv hinv.capacities he hexec ht
  have hlen' : len.toNat ≤ 8 * ocnt.toNat := hlen
  exact ⟨_, issue_writeReg_register rfl rfl (by decide) len, rfl, Nat.min_eq_left hlen',
    map_obufByte_hashedState s rfl (by omega)⟩

/-! ### What `HASH` depends on -/

section
variable {s t : State} (hbytes : ∀ k, k < s.ilen.toNat → ibufByte s k = ibufByte t k)
include hbytes

/-- The padded input depends on the message alone. -/
theorem ibufByte_padBytes_congr {k : Nat} (hk : k < paddedLen s.ilen.toNat) :
    ibufByte (padBytes s s.ilen.toNat) k = ibufByte (padBytes t s.ilen.toNat) k := by
  rw [ibufByte_padBytes, ibufByte_padBytes]
  split
  · rfl
  split
  · rfl
  split
  · rfl
  · exact hbytes k (by omega)

theorem hashAbsorbed_congr (hilen : t.ilen = s.ilen) : hashAbsorbed s = hashAbsorbed t := by
  rw [hashAbsorbed, hashAbsorbed, hilen]
  refine absorbPair_bytes (fun k hk => ibufByte_padBytes_congr hbytes hk) _ _ _ ?_
  rw [Nat.zero_add]
  exact Nat.mul_div_le _ _

end

/-- Settles O53: both hashes leave the state that the absorbed message, `ILEN` and `OLEN` give. -/
theorem hashIsIndependentOfHistory : Obligations.HashIsIndependentOfHistory := by
  intro s1 s2 t1 t2 hinv1 hinv2 hilen holen hbytes h1 h2 he1 he2 ht1 ht2
  obtain ⟨hi, -, blk1, ocnt1, hblk1, hocnt1, rfl⟩ := exec_hash_inv hinv1.capacities he1 h1 ht1
  obtain ⟨-, -, blk2, ocnt2, hblk2, hocnt2, rfl⟩ := exec_hash_inv hinv2.capacities he2 h2 ht2
  have habs := hashAbsorbed_congr hbytes hilen.symm
  obtain rfl : blk1 = blk2 := BitVec.eq_of_toNat_eq (by rw [hblk1, hblk2, hilen])
  obtain rfl : ocnt1 = ocnt2 := BitVec.eq_of_toNat_eq (by rw [hocnt1, hocnt2, holen])
  have hplen := toNat_ofNat_paddedLen hinv1.capacities hi
  refine ⟨?a, ?b, ?plen, rfl, rfl, rfl, ?window, fun k hk => ?obuf, fun k hk => ?ibuf⟩
  case a => simp only [hashedState, habs, holen]
  case b => simp only [hashedState, habs, holen]
  case plen => simp only [hashedState, hilen]
  case window => simp only [window, hashedState, holen]
  case obuf =>
    have hk' : k < 8 * ocnt1.toNat := hk.trans_le (Nat.min_le_right _ _)
    rw [obufByte_of_stored (bs := shakeStream (hashAbsorbed s1).1 (readoutsNeeded s1.olen.toNat)) rfl
        (by rw [length_shakeStream]; omega),
      obufByte_of_stored (bs := shakeStream (hashAbsorbed s1).1 (readoutsNeeded s1.olen.toNat))
        (by rw [habs, holen]; rfl)]
  case ibuf =>
    have hpad := ibufByte_padBytes_congr hbytes (hk.trans_eq hplen)
    exact hpad.trans (by rw [hilen]; rfl)

end Sys2Proof.Machine
end

section
/-! PROOF. The host's protocol (R236): moves issued one after another. -/

namespace Sys2Proof.Machine

/-! ### Sequences of moves -/

theorem issueAll_cons {m : HostMove} {ms : List HostMove} {s t u : State} {rs : List Reply} (h : issue m s = .next t)
    (hs : issueAll ms t = .next (u, rs)) : issueAll (m :: ms) s = .next (u, t.reply.toList ++ rs) := by
  simp only [issueAll, h, hs]

/-- A sequence that ends has made its first move. -/
theorem issueAll_cons_inv {m : HostMove} {ms : List HostMove} {s u : State} {rs : List Reply}
    (h : issueAll (m :: ms) s = .next (u, rs)) :
    ∃ t qs, issue m s = .next t ∧ issueAll ms t = .next (u, qs) ∧ rs = t.reply.toList ++ qs := by
  rw [issueAll] at h
  cases hm : issue m s with
  | next t =>
    simp only [hm] at h
    cases hms : issueAll ms t with
    | next p =>
      obtain ⟨v, qs⟩ := p
      simp only [hms, Host.Outcome.next.injEq, Prod.mk.injEq] at h
      obtain ⟨rfl, rfl⟩ := h
      exact ⟨t, qs, rfl, hms, rfl⟩
    | fault r => simp [hms] at h
    | refused r => simp [hms] at h
  | fault r => simp [hm] at h
  | refused r => simp [hm] at h

theorem issueAll_append {ms ns : List HostMove} {t u : State} {qs : List Reply} (hns : issueAll ns t = .next (u, qs)) :
    ∀ {s : State} {rs : List Reply}, issueAll ms s = .next (t, rs) → issueAll (ms ++ ns) s = .next (u, rs ++ qs) := by
  induction ms with
  | nil =>
    intro s rs hms
    obtain ⟨rfl, rfl⟩ : s = t ∧ [] = rs := by simpa [issueAll] using hms
    exact hns
  | cons m ms ih =>
    intro s rs hms
    obtain ⟨v, rs', hm, hrest, rfl⟩ := issueAll_cons_inv hms
    rw [List.cons_append, issueAll_cons hm (ih hrest), List.append_assoc]

/-- One more move after a sequence. -/
theorem issueAll_concat {m : HostMove} {ms : List HostMove} {s t u : State} {rs : List Reply}
    (hms : issueAll ms s = .next (t, rs)) (hm : issue m t = .next u) :
    issueAll (ms ++ [m]) s = .next (u, rs ++ u.reply.toList) := by
  have hone : issueAll [m] t = .next (u, u.reply.toList ++ []) := issueAll_cons hm rfl
  rw [issueAll_append hone hms, List.append_nil]

/-! ### The parts of the protocol -/

/-- The moves that write the bytes `f 0, ..., f (n - 1)` to `IBUF`. -/
def bufferWrites (f : Nat → Byte) (n : Nat) : List HostMove := (List.range n).map fun a => .writeIbuf a (f a)

/-- The moves that read the first `n` bytes of `OBUF`. -/
def bufferReads (n : Nat) : List HostMove := (List.range n).map .readObuf

theorem bufferWrites_succ (f : Nat → Byte) (n : Nat) :
    bufferWrites f (n + 1) = bufferWrites f n ++ [.writeIbuf n (f n)] := by
  simp [bufferWrites, List.range_succ]

theorem bufferReads_succ (n : Nat) : bufferReads (n + 1) = bufferReads n ++ [.readObuf n] := by
  simp [bufferReads, List.range_succ]

theorem issueAll_bufferWrites (f : Nat → Byte) {s : State} (hb : s.status.busy = false) (he : s.status.err = none) :
    ∀ n, n ≤ s.params.ibufCap →
      ∃ t, issueAll (bufferWrites f n) s = .next (t, []) ∧ t.params = s.params ∧ t.status = s.status ∧
        ∀ a, a < n → ibufByte t a = f a := by
  intro n
  induction n with
  | zero => exact fun _ => ⟨s, rfl, rfl, rfl, fun a ha => absurd ha (Nat.not_lt_zero a)⟩
  | succ n ih =>
    intro hn
    obtain ⟨t, hrun, hparams, hst, hbytes⟩ := ih (Nat.le_of_succ_le hn)
    have hstore := issue_writeIbuf_inside (s := t) (by rw [hst, hb]) (by rw [hst, he])
      (by rw [hparams]; exact hn) (f n)
    refine ⟨_, (congrArg (issueAll · s) (bufferWrites_succ f n)).trans (issueAll_concat hrun hstore), hparams, hst,
      fun a ha => ?byte⟩
    case byte =>
      rw [ibufByte_writeIbuf]
      split
      case isTrue h => rw [h]
      case isFalse h => exact hbytes a (by omega)

/-- Reads inside the window return its bytes, and change only what the last read returned. -/
theorem issueAll_bufferReads {s : State} (hb : s.status.busy = false) : ∀ n, n ≤ window s →
    ∃ r, issueAll (bufferReads n) s =
      .next ({ s with reply := r }, ((List.range n).map (obufByte s)).map .byte) := by
  intro n
  induction n with
  | zero => exact fun _ => ⟨s.reply, rfl⟩
  | succ n ih =>
    intro hn
    obtain ⟨r, hrun⟩ := ih (Nat.le_of_succ_le hn)
    have hread := issue_readObuf_inside (s := { s with reply := r }) hb (a := n) hn
    refine ⟨some (.byte (obufByte s n)), ?_⟩
    rw [bufferReads_succ, issueAll_concat hrun hread, List.range_succ, List.map_append, List.map_append]
    rfl

/-- The state after the writes of `ILEN` and `OLEN`. -/
def withLengths (s : State) (ilen olen : Word) : State := { s with reply := none, ilen := ilen, olen := olen }

theorem issueAll_lengths {s : State} (hb : s.status.busy = false) (he : s.status.err = none) (ilen olen : Word) :
    issueAll [.writeReg 2 ilen, .writeReg 3 olen] s = .next (withLengths s ilen olen, []) := by
  have hilen := issue_writeReg_register hb he (n := 2) (by decide) ilen
  have holen := issue_writeReg_register (s := { s with reply := none, ilen := ilen }) hb he (n := 3) (by decide) olen
  exact issueAll_cons hilen (issueAll_cons holen rfl)

/-- What the host needs to know of the state `HASH` leaves, when both checks pass. -/
theorem exec_hash_output {s : State} (he : s.status.err = none) (hp : s.params.wf)
    (hi : s.ilen.toNat < s.params.ibufCap) (ho : 21 * readoutsNeeded s.olen.toNat ≤ s.params.obufCapW) :
    ∃ t, exec .hash s = .next t ∧ t.status = ⟨false, true, none⟩ ∧ t.reply = s.reply ∧ window t = s.olen.toNat ∧
      (List.range s.olen.toNat).map (obufByte t) = shake128 (message s) s.olen.toNat := by
  obtain ⟨_, _, -, -, hexec⟩ := exec_hash he hp hi ho
  obtain ⟨hwindow, -⟩ := exec_hash_result hp he hexec rfl
  have hns := readoutsNeeded_eq s.olen.toNat
  exact ⟨_, hexec, rfl, rfl, hwindow, map_obufByte_hashedState s rfl (by omega)⟩

/-- `HASH`, the read of `STATUS` and the reads of the output, on an engine that holds the message and both lengths. -/
theorem issueAll_hash {s : State} (hb : s.status.busy = false) (he : s.status.err = none) (hp : s.params.wf)
    (hi : s.ilen.toNat < s.params.ibufCap) (ho : 21 * readoutsNeeded s.olen.toNat ≤ s.params.obufCapW) :
    ∃ t, issueAll (.writeReg 0 0x2F00 :: .readReg 1 :: bufferReads s.olen.toNat) s =
      .next (t, .word 2 :: (shake128 (message s) s.olen.toNat).map .byte) := by
  obtain ⟨t, hexec, hst, hreply, hwindow, hbytes⟩ := exec_hash_output (s := { s with reply := none }) he hp hi ho
  have houtput : (List.range s.olen.toNat).map (obufByte t) = shake128 (message s) s.olen.toNat := hbytes
  have hcommand : issue (.writeReg 0 0x2F00) s = .next t := (issue_command hb he (i := .hash) (by decide)).trans hexec
  have hdone : statusWord t.status = 2 := by rw [hst]; decide
  have hstatus := issue_readReg_status t
  rw [hdone] at hstatus
  obtain ⟨r, hreads⟩ := issueAll_bufferReads (s := { t with reply := some (.word 2) }) (by rw [hst]) s.olen.toNat
    hwindow.ge
  refine ⟨{ t with reply := r }, ?_⟩
  rw [issueAll_cons hcommand (issueAll_cons hstatus hreads), hreply, ← houtput]
  rfl

/-! ### The protocol -/

/-- A buffer that holds the bytes of `msg` below `ILEN` holds the message `msg`. -/
theorem message_eq {s : State} {msg : List Byte} (hilen : s.ilen.toNat = msg.length)
    (hbytes : ∀ a, a < msg.length → ibufByte s a = msg.getD a 0) : message s = msg := by
  refine List.ext_getElem (by rw [length_message, hilen]) fun k _ hk => ?_
  simp only [message, List.getElem_map, List.getElem_range]
  rw [hbytes k hk, List.getD_eq_getElem _ _ hk]

/-- Settles O55: the writes leave the message and both lengths in an engine without a fault, on which `HASH` and the
reads follow. -/
theorem hostProtocolReturnsShake128 : Obligations.HostProtocolReturnsShake128 := by
  intro s msg len hinv he hi ho
  have hp := hinv.capacities
  obtain ⟨t, hwrites, hparams, hst, hbytes⟩ :=
    issueAll_bufferWrites (fun a => msg.getD a 0) hinv.idle he msg.length hi.le
  have hb : t.status.busy = false := by rw [hst, hinv.idle]
  have he' : t.status.err = none := by rw [hst, he]
  have hilen : (BitVec.ofNat 64 msg.length).toNat = msg.length := by
    obtain ⟨-, -, hcap, -⟩ := hp
    exact (BitVec.toNat_ofNat _ _).trans (Nat.mod_eq_of_lt (by omega))
  obtain ⟨u, hhash⟩ := issueAll_hash (s := withLengths t (BitVec.ofNat 64 msg.length) len) hb he'
    (hparams ▸ hp) (hilen.trans_lt (hparams ▸ hi)) (hparams ▸ ho)
  rw [message_eq (s := withLengths t (BitVec.ofNat 64 msg.length) len) hilen hbytes] at hhash
  refine ⟨u, ?_⟩
  rw [List.append_assoc]
  exact issueAll_append (issueAll_append hhash (issueAll_lengths hb he' _ len)) hwrites

end Sys2Proof.Machine
end
